-- ==== Sys2Proof/Word.lean ====
section
/-! DEFINITION. The two widths of the core (00_scope R4, R5): the 15-bit word and the 16-bit raw value. -/

namespace Sys2Proof

/-- A word: 0..32767 (R5, WORD_BITS = 15). Registers, stack entries, values, results and the words at the I/O
boundary are words. -/
abbrev Word := BitVec 15

/-- A raw value: 0..65535 (R5, CELL_BITS = 16). A memory cell and an instruction word hold a raw value; the pc and
FAULT_ADDR, which can name the address just past memory, have this width too (R16, R23). -/
abbrev Raw := BitVec 16

/-- A register index 0..7 (R13, NREGS = 8). -/
abbrev RegIdx := Fin 8

end Sys2Proof
end

