-- ==== Sys2Proof/Config.lean ====
section
/-! DEFINITION. What is fixed for a run: the parameters of 00_scope R4, and the values the spec leaves open. -/

namespace Sys2Proof

/-- UNWRITTEN_READ (R4, R35, D3): what a read of an unallocated cell does. -/
inductive UnwrittenRead where
  /-- it raises UndefinedAddress: the default -/
  | fault
  /-- it returns 0 -/
  | zero
deriving DecidableEq, Repr

/-- REG_ONLY_DEST (R4, R67, D7): the set of opcodes whose destination must be a register. It is a subset of
set, pop, eq, gt, add, mult, mod, and, or, not, rmem, in that contains `set`; so `set` has no field, and each of the
other eleven has one: true when the set contains it. The default set is `set` alone. -/
structure RegOnlyDest where
  pop  : Bool := false
  eq   : Bool := false
  gt   : Bool := false
  add  : Bool := false
  mult : Bool := false
  mod  : Bool := false
  and  : Bool := false
  or   : Bool := false
  not  : Bool := false
  rmem : Bool := false
  inp  : Bool := false
deriving DecidableEq, Repr

/-- The launch parameters of R4 that the rules read. A model fixes them for the whole run (R35): no step writes them.
They stand in State so that every statement holds for every choice of them (log entry 5). -/
structure Params where
  /-- UNWRITTEN_READ -/
  unwrittenRead : UnwrittenRead := .fault
  /-- REG_ONLY_DEST -/
  regOnlyDest : RegOnlyDest := {}
  /-- STACK_DEPTH: none is the spec's default, an unbounded stack (R19, D14) -/
  stackDepth : Option Nat := none
deriving DecidableEq, Repr

/-- MEM_CELLS (R4, R20, D2): the cells have addresses 0..32767. -/
abbrev memCells : Nat := 32768

/-- A free value: what FAULT_ADDR holds after a fault whose kind is not UndefinedAddress. The spec leaves it
unspecified (R23, R100, I7: any value). It is applied to the model's counter of draws (log entry 2). Nothing can be
proved of its values. -/
opaque Config.freeFaultAddr : Nat → Raw

/-- A free value: LISTING_INVALID (R59, N12, D21), the text of the listing of words that are no instruction. It is
outside the core: no step reads it (log entry 13). -/
opaque Config.listingInvalid : List Raw → Nat → String

/-- A free value: the address after the listing of words that do not begin with an opcode word. R60 fixes that address
for the opcodes of the table only, and such words have no width (R53). No step reads it (log entry 13). -/
opaque Config.listingAddrAfterNonOpcode : List Raw → Nat → Nat

end Sys2Proof
end

