-- ==== Sys2Proof/Syntax.lean ====
section
/-! DEFINITION. The instructions: one constructor per row of spec/opcode_table.json (30_encoding R52). -/

namespace Sys2Proof

/-- A valid operand word (R49): a literal 0..32767 or a reference to a register. What it means depends on the role of
its position (R52): in a V or A role a literal is itself and a register reference is the register's content; in a D or
DR role a literal names the memory cell at that address and a register reference names the register (R58). -/
inductive Operand where
  | lit (v : Word)
  | reg (n : RegIdx)
deriving DecidableEq, Repr

/-- The 22 instructions, in the order of their opcode numbers 0..21 (R52). Operands stand in the order a, b, c. The
constructor of the row `in` is `inp`, since `in` is a word of Lean. -/
inductive Instr where
  | halt
  | set  (a b : Operand)
  | push (a : Operand)
  | pop  (a : Operand)
  | eq   (a b c : Operand)
  | gt   (a b c : Operand)
  | jmp  (a : Operand)
  | jt   (a b : Operand)
  | jf   (a b : Operand)
  | add  (a b c : Operand)
  | mult (a b c : Operand)
  | mod  (a b c : Operand)
  | and  (a b c : Operand)
  | or   (a b c : Operand)
  | not  (a b : Operand)
  | rmem (a b : Operand)
  | wmem (a b : Operand)
  | call (a : Operand)
  | ret
  | out  (a : Operand)
  | inp  (a : Operand)
  | noop
deriving DecidableEq, Repr

end Sys2Proof
end

