-- ==== Sys2Proof/Machine/State.lean ====
section
/-! DEFINITION. The machine's state, the reasons a step can stop, and the state after reset (10_state). -/

namespace Sys2Proof.Machine

/-- RUN, the run status (R22). -/
inductive RunStatus where
  | running
  | halted
  | faulted
deriving DecidableEq, Repr

/-- FAULT_KIND: the five kinds of fault the core raises (R23, R100). -/
inductive FaultKind where
  | invalidOperand
  | invalidOpcode
  | stackUnderflow
  | divideByZero
  | undefinedAddress
deriving DecidableEq, Repr

/-- Memory: the allocated cells, each with its raw value, by rising address (`Memory.wf` in Machine/Ops.lean). A cell's
allocation bit (R20, R33) is whether it is listed, under either policy; an unlisted address is unallocated, and no entry
says so (log entry 6). The unit is the 16-bit cell, the smallest thing the spec addresses (R31; log entry 3). -/
abbrev Memory := List (Nat × Raw)

/-- The state of the core: everything 10_state gives it, the two streams of the boundary (44_io), the launch parameters
(00_scope R4) and one counter of the model's own. -/
structure State where
  /-- R0..R7 (R13) -/
  regs : Vector Word 8
  /-- the program counter (R16) -/
  pc : Raw
  /-- the stack, its top first (R19) -/
  stack : List Word
  /-- the memory cells and their allocation (R20, R33) -/
  mem : Memory
  /-- RUN (R22) -/
  run : RunStatus
  /-- FAULT_KIND (R23); unspecified while RUN is not Faulted -/
  faultKind : FaultKind
  /-- FAULT_PC (R23); unspecified while RUN is not Faulted -/
  faultPc : Raw
  /-- FAULT_ADDR (R23); unspecified unless RUN is Faulted with kind UndefinedAddress -/
  faultAddr : Raw
  /-- the words the host has supplied and no `in` has taken, the next one first (R97, R98) -/
  input : List Word
  /-- the output events of the committed `out` steps, in step order, the oldest first (R99) -/
  output : List Word
  /-- the launch parameters (R4); no step writes them -/
  params : Params
  /-- the model's own: how many free values have been drawn (log entry 2) -/
  freeDraws : Nat
deriving DecidableEq, Repr

/-- Why no step can be taken. The five faults of the spec are not among these: their entry is described (R101), so a
step that raises one answers a next state. -/
inductive Fault where
  /-- Raised by `step` alone, when RUN is Halted: no step is enabled and the state never changes again (R74). Safe: the
  spec gives no next state here either. -/
  | halted
  /-- Raised by `step` alone, when RUN is Faulted: no step is enabled and the state never changes again (R74). Safe: the
  spec gives no next state here either. -/
  | faulted
deriving DecidableEq, Repr

/-- What the model has no meaning for. -/
inductive Refusal where
  /-- Raised by an arm of `exec` for an instruction without a meaning; no arm does. Safe. -/
  | notModelled (mnemonic : String)
  /-- Raised by `push` and `call` when STACK_DEPTH is finite and the stack holds that many entries: the spec makes it
  a refusal, never a wrap or a drop (R19, D14, I6). It cannot arise under the default, an unbounded stack. Safe: the
  model stops. -/
  | stackDepthExceeded
deriving DecidableEq, Repr

/-- The answer of an instruction. -/
abbrev Answer := Host.Outcome State Fault Refusal

/-- The state right after reset (R26, R116) of a core launched with the default parameters (R4) and no image
(N = 0; log entry 8). The fault record is unspecified there; its values are log entry 1's. No input word has been
supplied (log entry 4). -/
def State.reset : State where
  regs := Vector.replicate 8 0
  pc := 0
  stack := []
  mem := []
  run := .running
  faultKind := .invalidOperand
  faultPc := 0
  faultAddr := 0
  input := []
  output := []
  params := {}
  freeDraws := 0

end Sys2Proof.Machine
end

