-- ==== Sys2Proof/Machine/Flags.lean ====
section
/-! DEFINITION. Conditions. The core has no flags, condition codes or predicate registers (10_state R21): a comparison
gives a word, and a conditional jump tests a word. -/

namespace Sys2Proof.Machine

/-- What a comparison gives: 1 when it holds, 0 when not (R88, R89). -/
def conditionWord (b : Bool) : Word := if b then 1 else 0

/-- R88. -/
def isEqual (b c : Word) : Bool := b.toNat = c.toNat

/-- R89: unsigned. -/
def isGreater (b c : Word) : Bool := b.toNat > c.toNat

/-- R78, R79: every nonzero word is true, only 0 is false. -/
def isNonzero (v : Word) : Bool := v.toNat ≠ 0

end Sys2Proof.Machine
end

