-- ==== Sys2Proof/Machine/Ops.lean ====
section
/-! DEFINITION. The named operations over memory, registers, stack, pc, boundary and run status, and the entry of a
fault (20_memory, 10_state, 60_exceptions R101). -/

namespace Sys2Proof.Machine

/-! ### Memory (20_memory R31–R36) -/

/-- What a read of an unlisted address of memory gives, that is of an unallocated cell: nothing under UNWRITTEN_READ =
Fault, 0 under Zero (R35). -/
def unlisted : UnwrittenRead → Option Raw
  | .fault => none
  | .zero => some 0

/-- The entry listed for an address. -/
def Memory.find : Memory → Nat → Option Raw
  | [], _ => none
  | (k, v) :: m, a => if a = k then some v else Memory.find m a

/-- List v for address a, at its place by rising address, over an entry already listed for it. -/
def Memory.insert : Memory → Nat → Raw → Memory
  | [], a, v => [(a, v)]
  | (k, w) :: m, a, v =>
    if a < k then (a, v) :: (k, w) :: m
    else if a = k then (a, v) :: m
    else (k, w) :: Memory.insert m a v

/-- The canonical form: addresses strictly rising, each the address of a cell. An entry says that its cell is allocated
and what it holds; an unlisted address is unallocated, so no entry says what leaving it out would say. -/
abbrev Memory.wf (m : Memory) : Prop :=
  m.Pairwise (fun x y => x.1 < y.1) ∧ ∀ e ∈ m, e.1 < memCells

/-- R20, R33: the allocation bit of the cell at address a. -/
def Memory.allocated (m : Memory) (a : Nat) : Bool := decide (a < memCells) && (m.find a).isSome

/-- R34, R35: a read of the cell at address a; none where the read raises UndefinedAddress(a): no cell is there, or
the cell is unallocated under UNWRITTEN_READ = Fault. -/
def Memory.read (u : UnwrittenRead) (m : Memory) (a : Nat) : Option Raw :=
  if a < memCells then
    match m.find a with
    | some v => some v
    | none => unlisted u
  else none

/-- R36: store v in the cell at address a and mark it allocated. Every address an instruction writes is below 32768;
elsewhere no cell exists and nothing is stored. -/
def Memory.write (m : Memory) (a : Nat) (v : Raw) : Memory :=
  if a < memCells then m.insert a v else m

/-- Store words at a, a + 1, …: the loader's work (R116, R117), which no instruction does. -/
def Memory.load (m : Memory) (a : Nat) : List Raw → Memory
  | [] => m
  | v :: vs => Memory.load (m.write a v) (a + 1) vs

/-- R34, R35 in a state. -/
def State.readCell (s : State) (a : Nat) : Option Raw := s.mem.read s.params.unwrittenRead a

/-- R33: the cell at a is allocated: the image defined it or a committed step has written it. This is the bit itself,
under either policy. That an unallocated cell "reads as allocated" under UNWRITTEN_READ = Zero (R26) is what
`State.readCell` gives for it. -/
def State.allocated (s : State) (a : Nat) : Bool := s.mem.allocated a

/-- A word as a raw value, zero-extended (R6). -/
def rawOfWord (v : Word) : Raw := v.setWidth 16

/-- R86: a raw value mod 32768. -/
def wordOfRaw (v : Raw) : Word := BitVec.ofNat 15 v.toNat

/-- R36: MemWrite. Instructions write words only, at addresses that are words (R36, R45). -/
def State.writeCell (s : State) (a v : Word) : State :=
  { s with mem := s.mem.write a.toNat (rawOfWord v) }

/-! ### Registers (R7, R13, R14) -/

def State.readReg (s : State) (n : RegIdx) : Word := s.regs.get n

def State.writeReg (s : State) (n : RegIdx) (v : Word) : State := { s with regs := s.regs.set n v }

/-! ### The pc (R9, R17) -/

/-- `next`: the address of the instruction after one of the given width (R9, R46). -/
def State.next (s : State) (width : Nat) : Raw := s.pc + BitVec.ofNat 16 width

/-- pc <- pc0 + width (R17). -/
def State.advance (s : State) (width : Nat) : State := { s with pc := s.next width }

/-- pc <- target (R77). -/
def State.jump (s : State) (target : Word) : State := { s with pc := rawOfWord target }

/-! ### The stack (R8, R19) -/

/-- R19, D14: a push is within STACK_DEPTH. -/
def State.stackHasRoom (s : State) : Bool :=
  match s.params.stackDepth with
  | none => true
  | some d => s.stack.length < d

/-- Push. -/
def State.pushWord (s : State) (v : Word) : State := { s with stack := v :: s.stack }

/-- Pop, where the stack is not empty: what is left when the top is removed. -/
def State.dropTop (s : State) : State := { s with stack := s.stack.tail }

/-! ### The I/O boundary (R97–R99) -/

/-- OutputWord: one output event. -/
def State.emit (s : State) (w : Word) : State := { s with output := s.output ++ [w] }

/-- InputWord, where a word is ready: what is left when it is taken. -/
def State.dropInput (s : State) : State := { s with input := s.input.tail }

/-! ### Run status and faults (R22, R23, R100, R101) -/

/-- Halt: RUN <- Halted; the pc stays (R76, D12). -/
def State.halt (s : State) : State := { s with run := .halted }

/-- What a step raises: one of the five kinds, with the cell address for UndefinedAddress (R9, R100). -/
inductive Cause where
  | invalidOperand
  | invalidOpcode
  | stackUnderflow
  | divideByZero
  | undefinedAddress (addr : Raw)
deriving DecidableEq, Repr

/-- The kind recorded (R100). -/
def Cause.kind : Cause → FaultKind
  | .invalidOperand => .invalidOperand
  | .invalidOpcode => .invalidOpcode
  | .stackUnderflow => .stackUnderflow
  | .divideByZero => .divideByZero
  | .undefinedAddress _ => .undefinedAddress

/-- FAULT_ADDR after the fault (R101): the cell address for UndefinedAddress; for another kind it is unspecified (R23,
I7), a free value (log entry 2). -/
def Cause.recordedAddr (c : Cause) (draws : Nat) : Raw :=
  match c with
  | .undefinedAddress a => a
  | .invalidOperand | .invalidOpcode | .stackUnderflow | .divideByZero => Config.freeFaultAddr draws

/-- How many free values the entry of the fault draws. -/
def Cause.draws : Cause → Nat
  | .undefinedAddress _ => 0
  | .invalidOperand | .invalidOpcode | .stackUnderflow | .divideByZero => 1

/-- Fault entry (R101), shared by every fault: RUN <- Faulted, FAULT_KIND, FAULT_PC <- pc0, FAULT_ADDR for
UndefinedAddress. Nothing else of the core changes: the pc keeps pc0. There is no handler (R102) and no return from a
fault (R105), so no operation stands beside this one. -/
def State.enterFault (s : State) (c : Cause) : State :=
  { s with
    run := .faulted
    faultKind := c.kind
    faultPc := s.pc
    faultAddr := c.recordedAddr s.freeDraws
    freeDraws := s.freeDraws + c.draws }

/-- `raise` (R9): the step ends with the fault. -/
def raise (c : Cause) (s : State) : Answer := .next (s.enterFault c)

end Sys2Proof.Machine
end

