-- ==== Sys2Proof/Machine/Operands.lean ====
section
/-! DEFINITION. The operand decoder's two modes and the write of a destination (40_sequencer_decode R64–R68). -/

namespace Sys2Proof.Machine

/-- R64: value mode, for V and A roles: a literal is itself, a register reference is the register's content at the start
of the step. -/
def value (s : State) : Operand → Word
  | .lit v => v
  | .reg n => s.readReg n

/-- A write target (R65). -/
inductive Dest where
  | reg (n : RegIdx)
  | mem (a : Word)
deriving DecidableEq, Repr

/-- R65: destination mode: a literal names a memory cell, a register reference names the register. -/
def dest : Operand → Dest
  | .lit v => .mem v
  | .reg n => .reg n

/-- R65, R67: the destination of a position; none where it must be a register and is not (it raises InvalidOperand).
`regOnly` says that the opcode is in REG_ONLY_DEST. -/
def destOf (regOnly : Bool) (a : Operand) : Option Dest :=
  match dest a with
  | .reg n => some (.reg n)
  | .mem v => if regOnly then none else some (.mem v)

/-- R66: WriteDest. -/
def State.writeDest (s : State) (d : Dest) (v : Word) : State :=
  match d with
  | .reg n => s.writeReg n v
  | .mem a => s.writeCell a v

/-- R68: decode a destination operand, then go on with it; the failed register-only check ends the step with
InvalidOperand, before the execution stage (R103). -/
def withDest (regOnly : Bool) (a : Operand) (s : State) (k : Dest → Answer) : Answer :=
  match destOf regOnly a with
  | none => raise .invalidOperand s
  | some d => k d

/-- The end of every instruction with a result: WriteDest, then pc <- pc0 + width. -/
def finish (s : State) (d : Dest) (r : Word) (width : Nat) : Answer := .next ((s.writeDest d r).advance width)

/-- An instruction that only computes a result and writes it to its destination. -/
def writeResult (regOnly : Bool) (a : Operand) (r : Word) (width : Nat) (s : State) : Answer :=
  withDest regOnly a s fun d => finish s d r width

end Sys2Proof.Machine
end

