-- ==== Sys2Proof/Machine/Alu.lean ====
section
/-! DEFINITION. The ALU instructions (43_alu R88–R95). Operands are converted to natural numbers, the result is computed
exactly (R5), and it is narrowed to a word at the end. -/

namespace Sys2Proof.Machine

/-- A natural number mod 32768. -/
def narrow (n : Nat) : Word := BitVec.ofNat 15 n

/-- R90. -/
def aluAdd (b c : Word) : Word := narrow (b.toNat + c.toNat)

/-- R91. -/
def aluMult (b c : Word) : Word := narrow (b.toNat * c.toNat)

/-- R92, where c is not 0. -/
def aluMod (b c : Word) : Word := narrow (b.toNat % c.toNat)

/-- R93. -/
def aluAnd (b c : Word) : Word := narrow (b.toNat &&& c.toNat)

/-- R94. -/
def aluOr (b c : Word) : Word := narrow (b.toNat ||| c.toNat)

/-- R95. -/
def aluNot (b : Word) : Word := narrow (32767 - b.toNat)

/-- R88 `eq a b c`. -/
def execEq (a b c : Operand) (s : State) : Answer :=
  writeResult s.params.regOnlyDest.eq a (conditionWord (isEqual (value s b) (value s c))) 4 s

/-- R89 `gt a b c`. -/
def execGt (a b c : Operand) (s : State) : Answer :=
  writeResult s.params.regOnlyDest.gt a (conditionWord (isGreater (value s b) (value s c))) 4 s

/-- R90 `add a b c`. -/
def execAdd (a b c : Operand) (s : State) : Answer :=
  writeResult s.params.regOnlyDest.add a (aluAdd (value s b) (value s c)) 4 s

/-- R91 `mult a b c`. -/
def execMult (a b c : Operand) (s : State) : Answer :=
  writeResult s.params.regOnlyDest.mult a (aluMult (value s b) (value s c)) 4 s

/-- R92 `mod a b c`: DivideByZero where c is 0; a bad destination is found first (R103). -/
def execMod (a b c : Operand) (s : State) : Answer :=
  withDest s.params.regOnlyDest.mod a s fun d =>
    if (value s c).toNat = 0 then raise .divideByZero s
    else finish s d (aluMod (value s b) (value s c)) 4

/-- R93 `and a b c`. -/
def execAnd (a b c : Operand) (s : State) : Answer :=
  writeResult s.params.regOnlyDest.and a (aluAnd (value s b) (value s c)) 4 s

/-- R94 `or a b c`. -/
def execOr (a b c : Operand) (s : State) : Answer :=
  writeResult s.params.regOnlyDest.or a (aluOr (value s b) (value s c)) 4 s

/-- R95 `not a b`. -/
def execNot (a b : Operand) (s : State) : Answer :=
  writeResult s.params.regOnlyDest.not a (aluNot (value s b)) 3 s

end Sys2Proof.Machine
end

