-- ==== Sys2Proof/Machine/Control.lean ====
section
/-! DEFINITION. Control transfer and no-effect instructions (41_control R76–R82). -/

namespace Sys2Proof.Machine

/-- R76 `halt`: RUN <- Halted, the pc stays. -/
def execHalt (s : State) : Answer := .next s.halt

/-- R77 `jmp a`. -/
def execJmp (a : Operand) (s : State) : Answer := .next (s.jump (value s a))

/-- R78 `jt a b`: jump where a is not 0. -/
def execJt (a b : Operand) (s : State) : Answer :=
  .next (if isNonzero (value s a) then s.jump (value s b) else s.advance 3)

/-- R79 `jf a b`: jump where a is 0. -/
def execJf (a b : Operand) (s : State) : Answer :=
  .next (if isNonzero (value s a) then s.advance 3 else s.jump (value s b))

/-- R80 `call a`: push pc0 + 2, jump to a. Where pc0 + 2 is past the last word it raises UndefinedAddress(pc0 + 2)
before it pushes (D13). A push beyond a finite STACK_DEPTH is a refusal (R19, D14). -/
def execCall (a : Operand) (s : State) : Answer :=
  if s.pc.toNat + 2 > 32767 then raise (.undefinedAddress (s.next 2)) s
  else if s.stackHasRoom then .next ((s.pushWord (wordOfRaw (s.next 2))).jump (value s a))
  else .refused .stackDepthExceeded

/-- R81 `ret`: pc <- the popped word; StackUnderflow on an empty stack. -/
def execRet (s : State) : Answer :=
  match s.stack with
  | [] => raise .stackUnderflow s
  | t :: _ => .next (s.dropTop.jump t)

/-- R82 `noop`. -/
def execNoop (s : State) : Answer := .next (s.advance 1)

end Sys2Proof.Machine
end

