-- ==== Sys2Proof/Machine/Data.lean ====
section
/-! DEFINITION. Data movement, stack and memory access (42_data_stack R83–R87). -/

namespace Sys2Proof.Machine

/-- R83 `set a b`: the destination must be a register (R67). -/
def execSet (a b : Operand) (s : State) : Answer := writeResult true a (value s b) 3 s

/-- R84 `push a`. A push beyond a finite STACK_DEPTH is a refusal (R19, D14). -/
def execPush (a : Operand) (s : State) : Answer :=
  if s.stackHasRoom then .next ((s.pushWord (value s a)).advance 2) else .refused .stackDepthExceeded

/-- R85 `pop a`: a bad destination is found before the stack is looked at (R103); StackUnderflow on an empty stack. -/
def execPop (a : Operand) (s : State) : Answer :=
  withDest s.params.regOnlyDest.pop a s fun d =>
    match s.stack with
    | [] => raise .stackUnderflow s
    | v :: _ => finish s.dropTop d v 2

/-- R86 `rmem a b`: the cell at b, mod 32768; UndefinedAddress where it cannot be read. -/
def execRmem (a b : Operand) (s : State) : Answer :=
  withDest s.params.regOnlyDest.rmem a s fun d =>
    match s.readCell (value s b).toNat with
    | none => raise (.undefinedAddress (rawOfWord (value s b))) s
    | some v => finish s d (wordOfRaw v) 3

/-- R87 `wmem a b`: the address is value(a) (D6); a word needs no reduction mod 32768. -/
def execWmem (a b : Operand) (s : State) : Answer :=
  .next ((s.writeCell (value s a) (value s b)).advance 3)

end Sys2Proof.Machine
end

