-- ==== Sys2Proof/Machine/Io.lean ====
section
/-! DEFINITION. Input and output (44_io R96, R97). -/

namespace Sys2Proof.Machine

/-- R96 `out a`: one output event; a word needs no reduction mod 32768. -/
def execOut (a : Operand) (s : State) : Answer := .next ((s.emit (value s a)).advance 2)

/-- R97 `in a`: the destination is decoded before any input is taken (D15). While no word is ready the step is a Wait:
the state stays as it is and the same instruction is tried again (R11). -/
def execIn (a : Operand) (s : State) : Answer :=
  withDest s.params.regOnlyDest.inp a s fun d =>
    match s.input with
    | [] => .next s
    | w :: _ => finish s.dropInput d w 2

end Sys2Proof.Machine
end

