-- ==== Sys2Proof/WellFormed.lean ====
section
/-! DEFINITION. Which instruction terms are legal encodings under every choice of the parameters (30_encoding R55). -/

namespace Sys2Proof

/-- The operand may stand in a DR position: it is a register reference (R52, R67). -/
def Operand.isReg : Operand → Bool
  | .lit _ => false
  | .reg _ => true

/-- R55. The types already exclude an opcode word of 22 or more and an operand word of 32776 or more. What is left is
the DR role: the destination of `set` must be a register. (The other destinations are register-only under a wider
REG_ONLY_DEST; that depends on the launch, not on the instruction, and the meanings check it.) -/
def Instr.wellFormed : Instr → Bool
  | .set a _ => a.isReg
  | .halt | .push _ | .pop _ | .eq _ _ _ | .gt _ _ _ | .jmp _ | .jt _ _ | .jf _ _ | .add _ _ _ | .mult _ _ _
  | .mod _ _ _ | .and _ _ _ | .or _ _ _ | .not _ _ | .rmem _ _ | .wmem _ _ | .call _ | .ret | .out _ | .inp _
  | .noop => true

end Sys2Proof
end

