-- ==== Sys2Proof/Decode.lean ====
section
/-! DEFINITION. The dispatch table, the decoder and the encoder (30_encoding R46–R56, 40_sequencer_decode R61–R63). -/

namespace Sys2Proof

/-! ### The dispatch table (R52, R53, R56) -/

/-- The role of an operand position (R52). -/
inductive Role where
  /-- V: a value -/
  | value
  /-- D: a destination, a register or a memory cell -/
  | dest
  /-- DR: a destination that must be a register -/
  | destReg
  /-- A: a value used as a memory address -/
  | addr
deriving DecidableEq, Repr

/-- The entry of the dispatch table for one opcode (R56): its mnemonic, and the roles of its operands, which give its
arity. -/
structure Descriptor where
  mnemonic : String
  roles    : List Role
deriving DecidableEq, Repr

/-- The width in words, counting the opcode word: 1 plus the number of operands (R53). -/
def Descriptor.width (d : Descriptor) : Nat := d.roles.length + 1

/-- The opcode map of R52, opcodes 0..10. -/
def opcodeTableLow : List Descriptor := [
  ⟨"halt", []⟩,
  ⟨"set",  [.destReg, .value]⟩,
  ⟨"push", [.value]⟩,
  ⟨"pop",  [.dest]⟩,
  ⟨"eq",   [.dest, .value, .value]⟩,
  ⟨"gt",   [.dest, .value, .value]⟩,
  ⟨"jmp",  [.value]⟩,
  ⟨"jt",   [.value, .value]⟩,
  ⟨"jf",   [.value, .value]⟩,
  ⟨"add",  [.dest, .value, .value]⟩,
  ⟨"mult", [.dest, .value, .value]⟩]

/-- The opcode map of R52, opcodes 11..21. -/
def opcodeTableHigh : List Descriptor := [
  ⟨"mod",  [.dest, .value, .value]⟩,
  ⟨"and",  [.dest, .value, .value]⟩,
  ⟨"or",   [.dest, .value, .value]⟩,
  ⟨"not",  [.dest, .value]⟩,
  ⟨"rmem", [.dest, .value]⟩,
  ⟨"wmem", [.addr, .value]⟩,
  ⟨"call", [.value]⟩,
  ⟨"ret",  []⟩,
  ⟨"out",  [.value]⟩,
  ⟨"in",   [.dest]⟩,
  ⟨"noop", []⟩]

/-- The dispatch table (R56): the entry at position k is that of opcode k; there is no other entry. -/
def opcodeTable : List Descriptor := opcodeTableLow ++ opcodeTableHigh

/-- R62: the lookup of an opcode word. The whole 16-bit word is the number (R48): 22..65535 have no entry. -/
def descriptor (op : Raw) : Option Descriptor := opcodeTable[op.toNat]?

/-- R53, R54: the width the opcode word alone decides; none for a word that is no opcode. -/
def widthOf (op : Raw) : Option Nat := (descriptor op).map Descriptor.width

/-! ### The decoder -/

/-- Why the decoder gives no instruction. -/
inductive DecodeError where
  /-- the list ends before the instruction does: the word at this position of it is missing -/
  | truncated
  /-- the opcode word is 22..65535 (R48, R55) -/
  | invalidOpcode
  /-- operand k (1 is a, 2 is b, 3 is c) is 32776..65535 (R49, R55), and no operand before it is -/
  | invalidOperand (k : Nat)
deriving DecidableEq, Repr

/-- R49: the class of an operand word. None is the class 'invalid', 32776..65535. -/
def decodeOperand (num : Raw) : Option Operand :=
  if num.toNat < 32768 then some (.lit (num.setWidth 15))
  else if h : num.toNat < 32776 then some (.reg ⟨num.toNat - 32768, by omega⟩)
  else none

/-- What a decoder of a list of words answers: the instruction and the words after it, or the reason for none. -/
abbrev Decoded := Except DecodeError (Instr × List Raw)

/-- Format W2 (R47): one operand word. -/
def decodeW2 (f : Operand → Instr) : List Raw → Decoded
  | a :: rest =>
    match decodeOperand a with
    | none => .error (.invalidOperand 1)
    | some a => .ok (f a, rest)
  | _ => .error .truncated

/-- Format W3 (R47): two operand words, both fetched before either is decoded (R63), decoded a then b (R68). -/
def decodeW3 (f : Operand → Operand → Instr) : List Raw → Decoded
  | a :: b :: rest =>
    match decodeOperand a with
    | none => .error (.invalidOperand 1)
    | some a =>
      match decodeOperand b with
      | none => .error (.invalidOperand 2)
      | some b => .ok (f a b, rest)
  | _ => .error .truncated

/-- Format W4 (R47): three operand words, all fetched before any is decoded (R63), decoded a, b, c (R68). -/
def decodeW4 (f : Operand → Operand → Operand → Instr) : List Raw → Decoded
  | a :: b :: c :: rest =>
    match decodeOperand a with
    | none => .error (.invalidOperand 1)
    | some a =>
      match decodeOperand b with
      | none => .error (.invalidOperand 2)
      | some b =>
        match decodeOperand c with
        | none => .error (.invalidOperand 3)
        | some c => .ok (f a b c, rest)
  | _ => .error .truncated

/-- The words after the opcode word, decoded by the opcode's format (R47, R52). -/
def decodeBody (op : Nat) (ws : List Raw) : Decoded :=
  match op with
  | 0 => .ok (.halt, ws)
  | 1 => decodeW3 .set ws
  | 2 => decodeW2 .push ws
  | 3 => decodeW2 .pop ws
  | 4 => decodeW4 .eq ws
  | 5 => decodeW4 .gt ws
  | 6 => decodeW2 .jmp ws
  | 7 => decodeW3 .jt ws
  | 8 => decodeW3 .jf ws
  | 9 => decodeW4 .add ws
  | 10 => decodeW4 .mult ws
  | 11 => decodeW4 .mod ws
  | 12 => decodeW4 .and ws
  | 13 => decodeW4 .or ws
  | 14 => decodeW3 .not ws
  | 15 => decodeW3 .rmem ws
  | 16 => decodeW3 .wmem ws
  | 17 => decodeW2 .call ws
  | 18 => .ok (.ret, ws)
  | 19 => decodeW2 .out ws
  | 20 => decodeW2 .inp ws
  | 21 => .ok (.noop, ws)
  | _ => .error .invalidOpcode

/-- The decoder: the instruction at the head of a list of words, and the words after it. The opcode word is compared
whole (R48); the operands are classified by R49 alone. The register-only check of a DR operand depends on REG_ONLY_DEST
and raises the same fault kind, so the meanings make it (log entry 10). -/
def decode : List Raw → Decoded
  | [] => .error .truncated
  | op :: ws => decodeBody op.toNat ws

/-! ### The encoder -/

/-- The operand word of an operand (R49): a literal is itself, register n is 32768 + n. -/
def encodeOperand : Operand → Raw
  | .lit v => v.setWidth 16
  | .reg n => BitVec.ofNat 16 (32768 + n.val)

/-- The opcode number (R52). -/
def Instr.opcode : Instr → Nat
  | .halt => 0
  | .set _ _ => 1
  | .push _ => 2
  | .pop _ => 3
  | .eq _ _ _ => 4
  | .gt _ _ _ => 5
  | .jmp _ => 6
  | .jt _ _ => 7
  | .jf _ _ => 8
  | .add _ _ _ => 9
  | .mult _ _ _ => 10
  | .mod _ _ _ => 11
  | .and _ _ _ => 12
  | .or _ _ _ => 13
  | .not _ _ => 14
  | .rmem _ _ => 15
  | .wmem _ _ => 16
  | .call _ => 17
  | .ret => 18
  | .out _ => 19
  | .inp _ => 20
  | .noop => 21

/-- The operands in the order a, b, c (R46). -/
def Instr.operands : Instr → List Operand
  | .halt | .ret | .noop => []
  | .push a | .pop a | .jmp a | .call a | .out a | .inp a => [a]
  | .set a b | .jt a b | .jf a b | .not a b | .rmem a b | .wmem a b => [a, b]
  | .eq a b c | .gt a b c | .add a b c | .mult a b c | .mod a b c | .and a b c | .or a b c => [a, b, c]

/-- R46: the words of an instruction: the opcode word, then the operand words. -/
def encode (i : Instr) : List Raw := BitVec.ofNat 16 i.opcode :: i.operands.map encodeOperand

/-- The width of an instruction in words (R46). -/
def Instr.width (i : Instr) : Nat := i.operands.length + 1

/-! ### The opcode table's bit numbering -/

/-- Word k of a number whose bits are laid out word after word, 16 bits a word, the first word lowest. -/
def tableWord (w k : Nat) : Raw := BitVec.ofNat 16 (w / 2 ^ (16 * k))

/-- The four words (the longest instruction has width 4, R46) of an instruction whose bits are w, of which the table
gives nbits; every bit above them is 0. -/
def tableWords (nbits w : Nat) : List Raw :=
  let v := w % 2 ^ nbits
  [tableWord v 0, tableWord v 1, tableWord v 2, tableWord v 3]

/-- The instruction the decoder reads from an instruction whose bits are w, numbered as spec/opcode_table.json numbers
them. -/
def decodeTableWord (nbits w : Nat) : Option Instr :=
  match decode (tableWords nbits w) with
  | .ok (i, _) => some i
  | .error _ => none

end Sys2Proof
end

