-- ==== Sys2Proof/Machine/Fetch.lean ====
section
/-! DEFINITION. Fetch, dispatch and operand decode: the part of a step before execution (40_sequencer_decode
R61–R63, R68, R73; 60_exceptions R103). -/

namespace Sys2Proof.Machine

/-- The cells at a, a + 1, …, at most n of them, up to the first that cannot be read (R63: lowest address first). -/
def readRun (s : State) (a : Nat) : Nat → List Raw
  | 0 => []
  | n + 1 =>
    match s.readCell a with
    | none => []
    | some v => v :: readRun s (a + 1) n

/-- The words a step fetches: the opcode word at pc (R61) and, where it is an opcode, its operand words (R62, R63). The
list is shorter than the instruction exactly where a read raises UndefinedAddress, and then the missing word is at
pc plus its length. -/
def fetchWords (s : State) : List Raw :=
  match s.readCell s.pc.toNat with
  | none => []
  | some op => op :: readRun s (s.pc.toNat + 1) ((widthOf op).getD 1 - 1)

/-- Fetch, dispatch and decode (R61–R63, R68), with the faults in the order of R103. -/
def fetch (s : State) : Except Cause Instr :=
  match decode (fetchWords s) with
  | .ok (i, _) => .ok i
  | .error .invalidOpcode => .error .invalidOpcode
  | .error (.invalidOperand _) => .error .invalidOperand
  | .error .truncated => .error (.undefinedAddress (s.next (fetchWords s).length))

/-- The core in the state before a run of the given instruction words at its pc: what the host's load of an image
(R116) leaves there, with RUN = Running. -/
def State.withWordsAtPc (s : State) (ws : List Raw) : State :=
  { s with mem := s.mem.load s.pc.toNat ws, run := .running }

end Sys2Proof.Machine
end

