-- ==== Sys2Proof/Machine/Step.lean ====
section
/-! DEFINITION. One step of the core (40_sequencer_decode R72), and an instruction placed where it is fetched. -/

namespace Sys2Proof.Machine

/-- R72: a step starts only when RUN is Running (R61); in Halted and Faulted no step is enabled (R74). A fault of fetch
or decode is entered; otherwise the instruction is executed. -/
def step (s : State) : Host.Outcome State Fault Refusal :=
  match s.run with
  | .halted => .fault .halted
  | .faulted => .fault .faulted
  | .running =>
    match fetch s with
    | .error c => raise c s
    | .ok i => exec i s

/-- The state with the instruction whose bits are w (numbered as spec/opcode_table.json numbers them) in the cells at
pc, and RUN = Running: it stands for the host's load of an image (log entry 8). -/
def State.withFetchWord (s : State) (nbits w : Nat) : State := s.withWordsAtPc (tableWords nbits w)

end Sys2Proof.Machine
end

