-- ==== Sys2Proof/Machine/Boundary.lean ====
section
/-! DEFINITION. The host's side of the core: launch, input, output and result (60_exceptions R113, R114;
70_reset_and_hazards R116, R117; 20_memory R32; 44_io R98), and the codes and outcomes the spec names. -/

namespace Sys2Proof.Machine

/-! ### Launch -/

/-- R32: the words of an image file: word i is byte[2i] + 256 · byte[2i+1]. None for an odd number of bytes (I18: the
launch is refused). -/
def imageOfBytes : List (BitVec 8) → Option (List Raw)
  | [] => some []
  | [_] => none
  | lo :: hi :: rest =>
    match imageOfBytes rest with
    | none => none
    | some ws => some (BitVec.ofNat 16 (lo.toNat + 256 * hi.toNat) :: ws)

/-- R116, R117: the reset state for an image of N words under the given parameters: cells 0..N-1 take the image words and are
allocated.
None where N > 32768: the launch is refused (D2, I18). -/
def State.boot (p : Params) (image : List Raw) : Option State :=
  if image.length ≤ memCells then
    some { State.reset with params := p, mem := Memory.load [] 0 image }
  else none

/-! ### During and after the run -/

/-- R98, R114: the host supplies one more input word. -/
def State.supplyInput (s : State) (w : Word) : State := { s with input := s.input ++ [w] }

/-- What the host reads of a fault: the kind and FAULT_PC (R113), and FAULT_ADDR for UndefinedAddress only (R23). -/
structure FaultReport where
  kind : FaultKind
  pc   : Raw
  addr : Option Raw
deriving DecidableEq, Repr

/-- The result of a run (R113). -/
inductive RunResult where
  | halted
  | faulted (r : FaultReport)
deriving DecidableEq, Repr

/-- R113, R23: nothing while RUN is Running; the fault record is read only in Faulted, FAULT_ADDR only for
UndefinedAddress. -/
def State.result (s : State) : Option RunResult :=
  match s.run with
  | .running => none
  | .halted => some .halted
  | .faulted =>
    some (.faulted ⟨s.faultKind, s.faultPc, if s.faultKind = .undefinedAddress then some s.faultAddr else none⟩)

/-- R97, R124: the core waits for the host: the next instruction is an `in` whose destination is good and no input word
is ready. -/
def State.waiting (s : State) : Bool :=
  match s.run, fetch s with
  | .running, .ok (.inp a) => (destOf s.params.regOnlyDest.inp a).isSome && s.input.isEmpty
  | _, _ => false

/-- The four ways a step ends (R11, R72). -/
inductive StepEnd where
  | continued (s : State)
  | halted (s : State)
  | faulted (s : State)
  | wait
deriving DecidableEq, Repr

/-- How the step of a state ends; none where no step is enabled (R74) or the model refuses (a finite STACK_DEPTH). -/
def State.stepEnd (s : State) : Option StepEnd :=
  if s.waiting then some .wait
  else
    match step s with
    | .next t =>
      match t.run with
      | .running => some (.continued t)
      | .halted => some (.halted t)
      | .faulted => some (.faulted t)
    | .fault _ => none
    | .refused _ => none

/-! ### Codes of a realisation (R22, R23, R100, D11) -/

/-- R22: Running 0, Halted 1, Faulted 2. -/
def RunStatus.code : RunStatus → Nat
  | .running => 0
  | .halted => 1
  | .faulted => 2

/-- R23, R100: the code of a fault kind. -/
def FaultKind.code : FaultKind → Nat
  | .invalidOperand => 1
  | .invalidOpcode => 2
  | .stackUnderflow => 3
  | .divideByZero => 4
  | .undefinedAddress => 5

end Sys2Proof.Machine
end

