-- ==== Sys2Proof/Machine/Listing.lean ====
section
/-! DEFINITION. The assembler syntax and the listing function (30_encoding R56(c), R59, R60). The listing is outside the
core's execution: no step reads it. -/

namespace Sys2Proof.Machine

/-- R59: a register operand is `R0`..`R7`, a literal its decimal value. -/
def listOperand : Operand → String
  | .lit v => toString v.toNat
  | .reg n => "R" ++ toString n.val

/-- R59: operands separated by a comma and a space. -/
def listOperands : List Operand → String
  | [] => ""
  | [a] => listOperand a
  | a :: rest => listOperand a ++ ", " ++ listOperands rest

/-- The mnemonic the dispatch table gives (R52, R56). -/
def mnemonicOf (i : Instr) : String :=
  match descriptor (BitVec.ofNat 16 i.opcode) with
  | some d => d.mnemonic
  | none => ""

/-- R59: the mnemonic, then the operands; the mnemonic alone for a W1 instruction. -/
def listInstr (i : Instr) : String :=
  match i.operands with
  | [] => mnemonicOf i
  | ops => mnemonicOf i ++ " " ++ listOperands ops

/-- The text of the words at an address: for words that are no instruction it is LISTING_INVALID (R59, D21). -/
def listingText (ws : List Raw) (addr : Nat) : String :=
  match decode ws with
  | .ok (i, _) => listInstr i
  | .error _ => Config.listingInvalid ws addr

/-- R60: the address after the listing. The opcode word alone decides the width (R54), so an opcode word 0..21 advances
the address by its width whatever words follow it. -/
def listingNext (ws : List Raw) (addr : Nat) : Nat :=
  match ws.head?.bind widthOf with
  | some w => addr + w
  | none => Config.listingAddrAfterNonOpcode ws addr

/-- R59, R60: the listing of the words at an address: the text, and the address after it. -/
def listing (ws : List Raw) (addr : Nat) : String × Nat := (listingText ws addr, listingNext ws addr)

end Sys2Proof.Machine
end

