-- ==== Sys2Proof/Safety.lean ====
section
/-! DEFINITION. The terms claims are stated in: what a step leaves as it was, what a result and a fault are, and what
holds at every step boundary. -/

namespace Sys2Proof.Machine

/-! ### What is left as it was -/

/-- Every register reads as before. -/
def SameRegs (s t : State) : Prop := ∀ n, t.readReg n = s.readReg n

/-- Every address of memory reads as before, and its allocation bit is as before. -/
def SameCells (s t : State) : Prop := ∀ a, t.readCell a = s.readCell a ∧ t.allocated a = s.allocated a

/-- No input word is taken and no output event is emitted. -/
def SameBoundary (s t : State) : Prop := t.input = s.input ∧ t.output = s.output

/-- The fault record is as before. -/
def SameRecord (s t : State) : Prop :=
  t.faultKind = s.faultKind ∧ t.faultPc = s.faultPc ∧ t.faultAddr = s.faultAddr

/-- RUN, the fault record, the launch parameters and the model's counter are as before. -/
def SameStatus (s t : State) : Prop :=
  t.run = s.run ∧ SameRecord s t ∧ t.params = s.params ∧ t.freeDraws = s.freeDraws

/-! ### Results -/

/-- R66, and its frame: t holds r in the destination d, where a memory cell holds the word zero-extended to 16 bits and
is allocated (R36); every other register, every other address of memory and its allocation bit are in t as in s. -/
def Wrote (d : Dest) (r : Word) (s t : State) : Prop :=
  (∀ n, t.readReg n = if d = .reg n then r else s.readReg n) ∧
  (∀ a, t.readCell a =
    match d with
    | .reg _ => s.readCell a
    | .mem x => if a = x.toNat then some (r.setWidth 16) else s.readCell a) ∧
  ∀ a, t.allocated a =
    match d with
    | .reg _ => s.allocated a
    | .mem x => if a = x.toNat then true else s.allocated a

/-- The step from s to t wrote a word with the number v to d, advanced the pc by the width, and did nothing else. -/
def WroteResult (d : Dest) (v width : Nat) (s t : State) : Prop :=
  (∃ r : Word, r.toNat = v ∧ Wrote d r s t) ∧ t.pc = s.pc + BitVec.ofNat 16 width ∧
    t.stack = s.stack ∧ SameBoundary s t ∧ SameStatus s t

/-- R101: t is s after the entry of the fault c: RUN is Faulted, the record holds the kind and the pc of the
instruction, and the address for UndefinedAddress. Nothing else changed: pc, registers, cells, stack, boundary,
parameters are as in s. -/
def FaultedWith (c : Cause) (s t : State) : Prop :=
  t.run = .faulted ∧ t.faultKind = c.kind ∧ t.faultPc = s.pc ∧
    (∀ a, c = .undefinedAddress a → t.faultAddr = a) ∧
    t.pc = s.pc ∧ SameRegs s t ∧ SameCells s t ∧ t.stack = s.stack ∧ SameBoundary s t ∧ t.params = s.params

/-- The instruction answers a next state in which the fault c has been entered. -/
def Faults (i : Instr) (s : State) (c : Cause) : Prop := ∃ t, exec i s = .next t ∧ FaultedWith c s t

/-- The instruction computes the word with the number v and does nothing else: where its destination a is good, it
answers a next state with v in that destination; where the destination must be a register and is not, it faults
InvalidOperand. -/
def ComputesWord (i : Instr) (regOnly : Bool) (a : Operand) (v width : Nat) (s : State) : Prop :=
  (∀ d, destOf regOnly a = some d → ∃ t, exec i s = .next t ∧ WroteResult d v width s t) ∧
  (destOf regOnly a = none → Faults i s .invalidOperand)

/-- The step from s to t moved the pc to p and did nothing else. -/
def OnlyPc (p : Raw) (s t : State) : Prop :=
  t.pc = p ∧ SameRegs s t ∧ SameCells s t ∧ t.stack = s.stack ∧ SameBoundary s t ∧ SameStatus s t

/-- The step from s to t moved the pc to p, made the stack st, and did nothing else. -/
def OnlyPcAndStack (p : Raw) (st : List Word) (s t : State) : Prop :=
  t.pc = p ∧ t.stack = st ∧ SameRegs s t ∧ SameCells s t ∧ SameBoundary s t ∧ SameStatus s t

/-! ### The instructions by what they may change (R14, R17, R27) -/

/-- The destination operand (roles D and DR, R52). -/
def destinationOperand : Instr → Option Operand
  | .set a _ | .pop a | .eq a _ _ | .gt a _ _ | .add a _ _ | .mult a _ _ | .mod a _ _ | .and a _ _ | .or a _ _
  | .not a _ | .rmem a _ | .inp a => some a
  | .halt | .push _ | .jmp _ | .jt _ _ | .jf _ _ | .wmem _ _ | .call _ | .ret | .out _ | .noop => none

/-- R67, R4: the destination operand of the instruction must be a register: it is in REG_ONLY_DEST, which always
contains `set`. -/
def mustBeRegister (p : RegOnlyDest) : Instr → Bool
  | .set _ _ => true
  | .pop _ => p.pop
  | .eq _ _ _ => p.eq
  | .gt _ _ _ => p.gt
  | .add _ _ _ => p.add
  | .mult _ _ _ => p.mult
  | .mod _ _ _ => p.mod
  | .and _ _ _ => p.and
  | .or _ _ _ => p.or
  | .not _ _ => p.not
  | .rmem _ _ => p.rmem
  | .inp _ => p.inp
  | .halt | .push _ | .jmp _ | .jt _ _ | .jf _ _ | .wmem _ _ | .call _ | .ret | .out _ | .noop => false

/-- R65, R67: the decoded destination of an instruction; none where it has no destination operand, or a literal where
it must be a register. -/
def destination (s : State) (i : Instr) : Option Dest :=
  (destinationOperand i).bind (destOf (mustBeRegister s.params.regOnlyDest i))

/-- R37: the address of the cell an instruction stores to: `wmem` its address operand (R87), every other instruction the
cell its destination names (R66); none where it stores to no cell. -/
def storeAddress (s : State) (i : Instr) : Option Word :=
  match i with
  | .wmem a _ => some (value s a)
  | .halt | .set _ _ | .push _ | .pop _ | .eq _ _ _ | .gt _ _ _ | .jmp _ | .jt _ _ | .jf _ _ | .add _ _ _
  | .mult _ _ _ | .mod _ _ _ | .and _ _ _ | .or _ _ _ | .not _ _ | .rmem _ _ | .call _ | .ret | .out _ | .inp _
  | .noop =>
    match destination s i with
    | some (.mem v) => some v
    | some (.reg _) | none => none

/-- The address of the cell the step of a running state stores to: that of the instruction it fetches. -/
def stepStoreAddress (s : State) : Option Word :=
  match fetch s with
  | .ok i => storeAddress s i
  | .error _ => none

/-- R17: the instruction sets the pc to pc + width. -/
def isSequential : Instr → Bool
  | .halt | .jmp _ | .jt _ _ | .jf _ _ | .call _ | .ret => false
  | .set _ _ | .push _ | .pop _ | .eq _ _ _ | .gt _ _ _ | .add _ _ _ | .mult _ _ _ | .mod _ _ _ | .and _ _ _
  | .or _ _ _ | .not _ _ | .rmem _ _ | .wmem _ _ | .out _ | .inp _ | .noop => true

/-- R100: the fault kinds the execution of an instruction can raise, after fetch and the decode of its words: the
register-only check of a destination, and at most one execution fault. -/
def executionFaults : Instr → List FaultKind
  | .halt | .push _ | .jmp _ | .jt _ _ | .jf _ _ | .wmem _ _ | .out _ | .noop => []
  | .set _ _ | .eq _ _ _ | .gt _ _ _ | .add _ _ _ | .mult _ _ _ | .and _ _ _ | .or _ _ _ | .not _ _ | .inp _ =>
    [.invalidOperand]
  | .pop _ => [.invalidOperand, .stackUnderflow]
  | .ret => [.stackUnderflow]
  | .mod _ _ _ => [.invalidOperand, .divideByZero]
  | .rmem _ _ => [.invalidOperand, .undefinedAddress]
  | .call _ => [.undefinedAddress]

/-- R100: the execution-stage fault of an instruction in a state: what the operand, stack and memory it would use make
of it. -/
def executionCause (s : State) : Instr → Option Cause
  | .pop _ | .ret => if s.stack = [] then some .stackUnderflow else none
  | .mod _ _ c => if (value s c).toNat = 0 then some .divideByZero else none
  | .rmem _ b =>
    if s.readCell (value s b).toNat = none then some (.undefinedAddress ((value s b).setWidth 16)) else none
  | .call _ => if 32767 < s.pc.toNat + 2 then some (.undefinedAddress (s.pc + 2)) else none
  | .halt | .set _ _ | .push _ | .eq _ _ _ | .gt _ _ _ | .jmp _ | .jt _ _ | .jf _ _ | .add _ _ _ | .mult _ _ _
  | .and _ _ _ | .or _ _ _ | .not _ _ | .wmem _ _ | .out _ | .inp _ | .noop => none

/-- R103, R68: the fault of an instruction once it is fetched and its operand words are decoded: the failed
register-only check of its destination, else its execution-stage fault; none where it raises none. -/
def instrCause (s : State) (i : Instr) : Option Cause :=
  if (destinationOperand i).isSome = true ∧ destination s i = none then some .invalidOperand else executionCause s i

/-- R103: the fault the step of a running state raises: that of its fetch and decode, else that of the instruction it
fetches; none where it raises none. -/
def stepCause (s : State) : Option Cause :=
  match fetch s with
  | .error c => some c
  | .ok i => instrCause s i

/-! ### What a program can observe -/

/-- The two states differ at most in the fault record, the output events and the model's counter. -/
def SameForProgram (s t : State) : Prop :=
  t.regs = s.regs ∧ t.pc = s.pc ∧ t.stack = s.stack ∧ t.mem = s.mem ∧ t.run = s.run ∧ t.input = s.input ∧
    t.params = s.params

/-! ### What holds at every step boundary -/

/-- The memory is in canonical form, the pc is at most 32771 (R16), and the stack is within STACK_DEPTH (R19). -/
def StateInv (s : State) : Prop :=
  s.mem.wf ∧ s.pc.toNat ≤ 32771 ∧ ∀ d, s.params.stackDepth = some d → s.stack.length ≤ d

/-- A run is safe so far: no fault has been entered. -/
def Safe (s : State) : Prop := s.run ≠ .faulted

end Sys2Proof.Machine
end

