-- ==== Sys2Proof/Certificates/Slice0/Obligations.lean ====
section
/-! DEFINITION. The statements for the provers. Each docstring names the rule of spec/ it formalises, and says where a
clause rests on a decision or an inference of the spec's own, or on a log entry of the model. -/

open Sys2Proof Sys2Proof.Machine

/-! ### Encoding and decoding -/

/-- R46, R47, R49, R52 (their encodings): decoding the words of an instruction gives it back, with the words after it,
for every instruction and every value of every operand. -/
def Obligations.DecodeOfEncodeIsTheInstruction : Prop :=
  ∀ (i : Instr) (rest : List Raw), decode (encode i ++ rest) = .ok (i, rest)

/-- The other direction: words that decode are the words of what they decode to, so no two word sequences decode to one
instruction and no bit is ignored (D22). -/
def Obligations.DecodedWordsAreTheEncoding : Prop :=
  ∀ (ws rest : List Raw) (i : Instr), decode ws = .ok (i, rest) → ws = encode i ++ rest

/-- Words written out from the opcode map of R52 and the operand classes of R49, one per family. -/
def Obligations.SpecWordsDecode : Prop :=
  decode [0] = .ok (.halt, []) ∧
  decode [6, 32769] = .ok (.jmp (.reg 1), []) ∧
  decode [17, 3, 0, 18] = .ok (.call (.lit 3), [0, 18]) ∧
  decode [1, 32768, 3] = .ok (.set (.reg 0) (.lit 3), []) ∧
  decode [15, 32775, 32767] = .ok (.rmem (.reg 7) (.lit 32767), []) ∧
  decode [16, 100, 32769] = .ok (.wmem (.lit 100) (.reg 1), []) ∧
  decode [9, 32768, 4, 5] = .ok (.add (.reg 0) (.lit 4) (.lit 5), []) ∧
  decode [11, 200, 32770, 3] = .ok (.mod (.lit 200) (.reg 2) (.lit 3), []) ∧
  decode [19, 32768] = .ok (.out (.reg 0), []) ∧
  decode [20, 32769] = .ok (.inp (.reg 1), [])

/-- R49: the three classes of an operand word. -/
def Obligations.OperandWordClasses : Prop :=
  ∀ num : Raw,
    (num.toNat ≤ 32767 → ∃ v, decodeOperand num = some (.lit v) ∧ v.toNat = num.toNat) ∧
    (32768 ≤ num.toNat ∧ num.toNat ≤ 32775 → ∃ n, decodeOperand num = some (.reg n) ∧ n.val = num.toNat - 32768) ∧
    (32776 ≤ num.toNat → decodeOperand num = none)

/-- The width function (R53, an inference of the spec's: [derived]) and that the opcode word alone decides the length
(R54, [derived]). -/
def Obligations.OpcodeDecidesWidth : Prop :=
  (∀ op : Raw, widthOf op =
    if op.toNat ∈ [0, 18, 21] then some 1
    else if op.toNat ∈ [2, 3, 6, 17, 19, 20] then some 2
    else if op.toNat ∈ [1, 7, 8, 14, 15, 16] then some 3
    else if op.toNat ∈ [4, 5, 9, 10, 11, 12, 13] then some 4
    else none) ∧
  ∀ (op : Raw) (ws rest : List Raw) (i : Instr), decode (op :: ws) = .ok (i, rest) →
    ∃ w, widthOf op = some w ∧ ws.length + 1 = w + rest.length

/-- R48 (D22: the whole word is compared): the decoder answers 'no opcode' on exactly the opcode words 22..65535,
whatever words follow. -/
def Obligations.ExactlyWordsAbove21AreNoOpcode : Prop :=
  ∀ (op : Raw) (ws : List Raw), decode (op :: ws) = .error .invalidOpcode ↔ 22 ≤ op.toNat

/-! ### Operands -/

/-- R64: a V or A operand word denotes itself, or the content of the register it names at the start of the step; a word
of 32776 or more denotes nothing. -/
def Obligations.ValueModeDenotesLiteralOrRegister : Prop :=
  ∀ (s : State) (num : Raw),
    (num.toNat ≤ 32767 → ∃ o, decodeOperand num = some o ∧ (value s o).toNat = num.toNat) ∧
    (∀ n : RegIdx, num.toNat = 32768 + n.val → ∃ o, decodeOperand num = some o ∧ value s o = s.readReg n) ∧
    (32776 ≤ num.toNat → decodeOperand num = none)

/-- R65, and R67's check of a register-only destination: a literal names the cell at that address, or nothing where the
destination must be a register; a register reference names the register. -/
def Obligations.DestinationModeNamesCellOrRegister : Prop :=
  ∀ (num : Raw),
    (num.toNat ≤ 32767 → ∃ o v, decodeOperand num = some o ∧ dest o = .mem v ∧ v.toNat = num.toNat ∧
      destOf false o = some (.mem v) ∧ destOf true o = none) ∧
    (∀ n : RegIdx, num.toNat = 32768 + n.val → ∃ o, decodeOperand num = some o ∧ dest o = .reg n ∧
      ∀ regOnly, destOf regOnly o = some (.reg n)) ∧
    (32776 ≤ num.toNat → decodeOperand num = none)

/-- R66: WriteDest writes its word to the register, or to the cell (in every state, with every other register and every
other address as before), and nothing else. That the cell written is allocated, and that a cell not allocated before can
be written, is R36 with D4 (the spec's own choice; log entries 6 and 14). -/
def Obligations.WriteDestWritesOnlyItsTarget : Prop :=
  ∀ (s : State) (d : Dest) (v : Word),
    Wrote d v s (s.writeDest d v) ∧ (s.writeDest d v).pc = s.pc ∧ (s.writeDest d v).stack = s.stack ∧
      SameBoundary s (s.writeDest d v) ∧ SameStatus s (s.writeDest d v)

/-! ### Memory -/

/-- R34, and R35 with the memory geometry of D2 and the policy of D3: no cell at 32768 and above; an allocated cell
gives its value; an unallocated cell gives nothing under Fault and 0 under Zero. That the allocation bit is whether the
memory lists the cell is log entry 6. -/
def Obligations.CellReadFollowsPolicy : Prop :=
  ∀ (s : State) (a : Nat),
    (32768 ≤ a → s.readCell a = none) ∧
    (∀ v, a < 32768 → s.mem.find a = some v → s.allocated a = true ∧ s.readCell a = some v) ∧
    (s.allocated a = true → ∃ v, s.mem.find a = some v ∧ s.readCell a = some v) ∧
    (a < 32768 → s.allocated a = false → s.params.unwrittenRead = .fault → s.readCell a = none) ∧
    (a < 32768 → s.allocated a = false → s.params.unwrittenRead = .zero → s.readCell a = some 0)

/-- R36 (D4: a write never faults and allocates the cell): after MemWrite the cell reads as the word and is allocated;
every other address reads as before, its allocation bit as before. The model's memory stays in its canonical form (log
entry 6). -/
def Obligations.CellWriteStoresAndAllocates : Prop :=
  ∀ (s : State) (a v : Word) (x : Nat),
    (s.writeCell a v).readCell x = (if x = a.toNat then some (v.setWidth 16) else s.readCell x) ∧
    (s.writeCell a v).allocated x = (if x = a.toNat then true else s.allocated x) ∧
    (s.mem.wf → (s.writeCell a v).mem.wf)

/-- The model's own form of memory (log entry 6): canonical memories that read alike and whose cells are allocated alike
at every address are equal data; under UNWRITTEN_READ = Fault it is enough that they read alike. -/
def Obligations.CanonicalMemoriesAreEqualWhenReadAlike : Prop :=
  ∀ (u : UnwrittenRead) (m m' : Memory), m.wf → m'.wf → (∀ a, m.read u a = m'.read u a) →
    (u = .fault ∨ ∀ a, m.allocated a = m'.allocated a) → m = m'

/-! ### Control transfer -/

/-- R76, with the pc of D12 (the spec's own choice): `halt` sets RUN to Halted and leaves everything else, the pc too. -/
def Obligations.HaltStopsTheRun : Prop :=
  ∀ s : State, encode .halt = [0] ∧
    ∃ t, exec .halt s = .next t ∧ t.run = .halted ∧ t.pc = s.pc ∧ SameRegs s t ∧ SameCells s t ∧ t.stack = s.stack ∧
      SameBoundary s t ∧ SameRecord s t ∧ t.params = s.params ∧ t.freeDraws = s.freeDraws

/-- R77. -/
def Obligations.JmpSetsPcToTarget : Prop :=
  ∀ (a : Operand) (s : State), encode (.jmp a) = [6, encodeOperand a] ∧
    ∃ t, exec (.jmp a) s = .next t ∧ OnlyPc ((value s a).setWidth 16) s t

/-- R78: a nonzero condition jumps, 0 falls through. Both operand words are decoded whatever the condition (D8, the
spec's own choice): a bad target word is no instruction. -/
def Obligations.JtJumpsWhenNonzero : Prop :=
  ∀ (a b : Operand) (s : State), encode (.jt a b) = [7, encodeOperand a, encodeOperand b] ∧
    (∃ t, exec (.jt a b) s = .next t ∧
      OnlyPc (if (value s a).toNat = 0 then s.pc + 3 else (value s b).setWidth 16) s t) ∧
    ∀ bad : Raw, 32776 ≤ bad.toNat → decode [7, encodeOperand a, bad] = .error (.invalidOperand 2)

/-- R79: the condition 0 jumps, a nonzero one falls through. Both operand words are decoded whatever the condition (D8,
the spec's own choice): a bad target word is no instruction. -/
def Obligations.JfJumpsWhenZero : Prop :=
  ∀ (a b : Operand) (s : State), encode (.jf a b) = [8, encodeOperand a, encodeOperand b] ∧
    (∃ t, exec (.jf a b) s = .next t ∧
      OnlyPc (if (value s a).toNat = 0 then (value s b).setWidth 16 else s.pc + 3) s t) ∧
    ∀ bad : Raw, 32776 ≤ bad.toNat → decode [8, encodeOperand a, bad] = .error (.invalidOperand 2)

/-- R80: `call` pushes pc0 + 2 and jumps to the target's value; where pc0 + 2 is above 32767 it faults
UndefinedAddress(pc0 + 2) (D13, the spec's own choice); with a finite STACK_DEPTH that is reached it is refused (D14). -/
def Obligations.CallPushesReturnAddress : Prop :=
  ∀ (a : Operand) (s : State), encode (.call a) = [17, encodeOperand a] ∧
    (s.pc.toNat + 2 ≤ 32767 → (∀ d, s.params.stackDepth = some d → s.stack.length < d) →
      ∃ t r, exec (.call a) s = .next t ∧ r.toNat = s.pc.toNat + 2 ∧
        OnlyPcAndStack ((value s a).setWidth 16) (r :: s.stack) s t) ∧
    (32767 < s.pc.toNat + 2 → Faults (.call a) s (.undefinedAddress (s.pc + 2))) ∧
    ∀ d, s.pc.toNat + 2 ≤ 32767 → s.params.stackDepth = some d → d ≤ s.stack.length →
      exec (.call a) s = .refused .stackDepthExceeded

/-- R81: `ret` pops the top word into the pc; on an empty stack it faults StackUnderflow. -/
def Obligations.RetPopsThePc : Prop :=
  ∀ s : State, encode .ret = [18] ∧
    (∀ top rest, s.stack = top :: rest →
      ∃ t, exec .ret s = .next t ∧ OnlyPcAndStack (top.setWidth 16) rest s t) ∧
    (s.stack = [] → Faults .ret s .stackUnderflow)

/-- R82. -/
def Obligations.NoopAdvancesPcOnly : Prop :=
  ∀ s : State, encode .noop = [21] ∧ ∃ t, exec .noop s = .next t ∧ OnlyPc (s.pc + 1) s t

/-! ### Data movement, stack and memory access -/

/-- R83: `set` copies b's value into the register a; a literal a faults InvalidOperand. -/
def Obligations.SetCopiesIntoRegister : Prop :=
  ∀ (a b : Operand) (s : State), encode (.set a b) = [1, encodeOperand a, encodeOperand b] ∧
    (∀ n, a = .reg n → ∃ t, exec (.set a b) s = .next t ∧ WroteResult (.reg n) (value s b).toNat 3 s t) ∧
    (∀ v, a = .lit v → Faults (.set a b) s .invalidOperand)

/-- R84: `push` puts a's value on top of the stack; with a finite STACK_DEPTH that is reached it is refused (D14). -/
def Obligations.PushPutsValueOnTop : Prop :=
  ∀ (a : Operand) (s : State), encode (.push a) = [2, encodeOperand a] ∧
    ((∀ d, s.params.stackDepth = some d → s.stack.length < d) →
      ∃ t, exec (.push a) s = .next t ∧ OnlyPcAndStack (s.pc + 2) (value s a :: s.stack) s t) ∧
    ∀ d, s.params.stackDepth = some d → d ≤ s.stack.length → exec (.push a) s = .refused .stackDepthExceeded

/-- R85: `pop` moves the top word to the destination; StackUnderflow on an empty stack; and a pop right after a push
gives the word pushed. That a destination that must be a register and is not (R67, D7) enters InvalidOperand whatever
the stack holds is the fault order of R103 (D9, the spec's own choice; log entries 10 and 14). A cell destination not
allocated before is stored to and allocated: R36 with D4 (the spec's own choice; log entries 6 and 14). -/
def Obligations.PopMovesTopToDestination : Prop :=
  ∀ (a : Operand) (s : State), encode (.pop a) = [3, encodeOperand a] ∧
    (∀ d top rest, destOf s.params.regOnlyDest.pop a = some d → s.stack = top :: rest →
      ∃ t, exec (.pop a) s = .next t ∧ Wrote d top s t ∧ t.pc = s.pc + 2 ∧ t.stack = rest ∧
        SameBoundary s t ∧ SameStatus s t) ∧
    (∀ d, destOf s.params.regOnlyDest.pop a = some d → s.stack = [] → Faults (.pop a) s .stackUnderflow) ∧
    (destOf s.params.regOnlyDest.pop a = none → Faults (.pop a) s .invalidOperand) ∧
    ∀ b d t, destOf s.params.regOnlyDest.pop a = some d → exec (.push b) s = .next t →
      ∃ t', exec (.pop a) t = .next t' ∧ Wrote d (value s b) s t' ∧ t'.stack = s.stack

/-- R86: `rmem` moves the cell at b's value, mod 32768, to the destination; UndefinedAddress where the cell cannot be
read. That a destination that must be a register and is not (R67, D7) enters InvalidOperand whatever the source cell is
is the fault order of R103 (D9, the spec's own choice; log entries 10 and 14). A cell destination not allocated before is
stored to and allocated: R36 with D4 (the spec's own choice; log entries 6 and 14). -/
def Obligations.RmemReadsCell : Prop :=
  ∀ (a b : Operand) (s : State), encode (.rmem a b) = [15, encodeOperand a, encodeOperand b] ∧
    (∀ d v, destOf s.params.regOnlyDest.rmem a = some d → s.readCell (value s b).toNat = some v →
      ∃ t, exec (.rmem a b) s = .next t ∧ WroteResult d (v.toNat % 32768) 3 s t) ∧
    (∀ d, destOf s.params.regOnlyDest.rmem a = some d → s.readCell (value s b).toNat = none →
      Faults (.rmem a b) s (.undefinedAddress ((value s b).setWidth 16))) ∧
    (destOf s.params.regOnlyDest.rmem a = none → Faults (.rmem a b) s .invalidOperand)

/-- R87, with the address of D6 (the spec's own choice): `wmem` stores b's value in the cell at a's value; it writes no
register and never faults, and stores to a cell not allocated before as well, which is then allocated: R36 with D4 (the
spec's own choice; log entries 6 and 14). -/
def Obligations.WmemStoresAtValueOfA : Prop :=
  ∀ (a b : Operand) (s : State), encode (.wmem a b) = [16, encodeOperand a, encodeOperand b] ∧
    ∃ t, exec (.wmem a b) s = .next t ∧ WroteResult (.mem (value s a)) (value s b).toNat 3 s t

/-! ### ALU -/

/-- R88: `eq` writes 1 where b and c are equal, 0 where not.
That a destination that must be a register and is not enters InvalidOperand is R67 with D7 (the spec's own choice; log
entry 10, DEDUCED), and that a cell destination not allocated before is stored to and allocated is R36 with D4 (the spec's
own choice; log entries 6 and 14). -/
def Obligations.EqWritesOneOrZero : Prop :=
  ∀ (a b c : Operand) (s : State),
    encode (.eq a b c) = [4, encodeOperand a, encodeOperand b, encodeOperand c] ∧
    ComputesWord (.eq a b c) s.params.regOnlyDest.eq a (if value s b = value s c then 1 else 0) 4 s

/-- R89: `gt` writes 1 where b is greater than c, unsigned, 0 where not.
That a destination that must be a register and is not enters InvalidOperand is R67 with D7 (the spec's own choice; log
entry 10, DEDUCED), and that a cell destination not allocated before is stored to and allocated is R36 with D4 (the spec's
own choice; log entries 6 and 14). -/
def Obligations.GtComparesUnsigned : Prop :=
  ∀ (a b c : Operand) (s : State),
    encode (.gt a b c) = [5, encodeOperand a, encodeOperand b, encodeOperand c] ∧
    ComputesWord (.gt a b c) s.params.regOnlyDest.gt a
      (if (value s b).toNat > (value s c).toNat then 1 else 0) 4 s

/-- R90: `add` writes (b + c) mod 32768.
That a destination that must be a register and is not enters InvalidOperand is R67 with D7 (the spec's own choice; log
entry 10, DEDUCED), and that a cell destination not allocated before is stored to and allocated is R36 with D4 (the spec's
own choice; log entries 6 and 14). -/
def Obligations.AddIsSumModulo32768 : Prop :=
  ∀ (a b c : Operand) (s : State),
    encode (.add a b c) = [9, encodeOperand a, encodeOperand b, encodeOperand c] ∧
    ComputesWord (.add a b c) s.params.regOnlyDest.add a (((value s b).toNat + (value s c).toNat) % 32768) 4 s

/-- R91: `mult` writes (b * c) mod 32768.
That a destination that must be a register and is not enters InvalidOperand is R67 with D7 (the spec's own choice; log
entry 10, DEDUCED), and that a cell destination not allocated before is stored to and allocated is R36 with D4 (the spec's
own choice; log entries 6 and 14). -/
def Obligations.MultIsProductModulo32768 : Prop :=
  ∀ (a b c : Operand) (s : State),
    encode (.mult a b c) = [10, encodeOperand a, encodeOperand b, encodeOperand c] ∧
    ComputesWord (.mult a b c) s.params.regOnlyDest.mult a (((value s b).toNat * (value s c).toNat) % 32768) 4 s

/-- R92: the unsigned remainder where c is not 0, DivideByZero where it is. That a destination that must be a register
and is not (R67, D7) enters InvalidOperand whatever c is, 0 too, is the fault order of R103 (D9, the spec's own choice;
log entries 10 and 14). A cell destination not allocated before is
stored to and allocated: R36 with D4 (the spec's own choice; log entries 6 and 14). -/
def Obligations.ModIsRemainderOrDivideByZero : Prop :=
  ∀ (a b c : Operand) (s : State),
    encode (.mod a b c) = [11, encodeOperand a, encodeOperand b, encodeOperand c] ∧
    ((value s c).toNat ≠ 0 → ComputesWord (.mod a b c) s.params.regOnlyDest.mod a
      ((value s b).toNat % (value s c).toNat) 4 s) ∧
    (∀ d, destOf s.params.regOnlyDest.mod a = some d → (value s c).toNat = 0 →
      Faults (.mod a b c) s .divideByZero) ∧
    (destOf s.params.regOnlyDest.mod a = none → Faults (.mod a b c) s .invalidOperand)

/-- R93: `and` writes b AND c.
That a destination that must be a register and is not enters InvalidOperand is R67 with D7 (the spec's own choice; log
entry 10, DEDUCED), and that a cell destination not allocated before is stored to and allocated is R36 with D4 (the spec's
own choice; log entries 6 and 14). -/
def Obligations.AndIsBitwise : Prop :=
  ∀ (a b c : Operand) (s : State),
    encode (.and a b c) = [12, encodeOperand a, encodeOperand b, encodeOperand c] ∧
    ComputesWord (.and a b c) s.params.regOnlyDest.and a ((value s b).toNat &&& (value s c).toNat) 4 s

/-- R94: `or` writes b OR c.
That a destination that must be a register and is not enters InvalidOperand is R67 with D7 (the spec's own choice; log
entry 10, DEDUCED), and that a cell destination not allocated before is stored to and allocated is R36 with D4 (the spec's
own choice; log entries 6 and 14). -/
def Obligations.OrIsBitwise : Prop :=
  ∀ (a b c : Operand) (s : State),
    encode (.or a b c) = [13, encodeOperand a, encodeOperand b, encodeOperand c] ∧
    ComputesWord (.or a b c) s.params.regOnlyDest.or a ((value s b).toNat ||| (value s c).toNat) 4 s

/-- R95: `not` writes 32767 - b, which is the complement of the 15 bits; twice it is the identity.
That a destination that must be a register and is not enters InvalidOperand is R67 with D7 (the spec's own choice; log
entry 10, DEDUCED), and that a cell destination not allocated before is stored to and allocated is R36 with D4 (the spec's
own choice; log entries 6 and 14). -/
def Obligations.NotIsComplement : Prop :=
  ∀ (a b : Operand) (s : State),
    encode (.not a b) = [14, encodeOperand a, encodeOperand b] ∧
    ComputesWord (.not a b) s.params.regOnlyDest.not a (32767 - (value s b).toNat) 3 s ∧
    ∀ (n : RegIdx) (t : State), exec (.not (.reg n) b) s = .next t →
      ∃ t', exec (.not (.reg n) (.reg n)) t = .next t' ∧ t'.readReg n = value s b

/-! ### Input and output -/

/-- R96: one output event with a's value, after all the earlier ones. -/
def Obligations.OutEmitsOneWord : Prop :=
  ∀ (a : Operand) (s : State), encode (.out a) = [19, encodeOperand a] ∧
    ∃ t, exec (.out a) s = .next t ∧ t.output = s.output ++ [value s a] ∧ t.pc = s.pc + 2 ∧
      t.input = s.input ∧ SameRegs s t ∧ SameCells s t ∧ t.stack = s.stack ∧ SameStatus s t

/-- R97 (with D15, the spec's own choice: a fault takes no input word): `in` takes the next input word into the
destination; while none is ready it is a Wait, which changes nothing; a destination that must be a register and is not
(R67, D7; log entry 10) faults and takes nothing. A cell destination not allocated before is stored to and allocated: R36
with D4 (log entries 6 and 14). The input as a list in State is log entry 4. -/
def Obligations.InTakesOneWordOrWaits : Prop :=
  ∀ (a : Operand) (s : State), encode (.inp a) = [20, encodeOperand a] ∧
    (∀ d w rest, destOf s.params.regOnlyDest.inp a = some d → s.input = w :: rest →
      ∃ t, exec (.inp a) s = .next t ∧ Wrote d w s t ∧ t.pc = s.pc + 2 ∧ t.input = rest ∧
        t.output = s.output ∧ t.stack = s.stack ∧ SameStatus s t) ∧
    (∀ d, destOf s.params.regOnlyDest.inp a = some d → s.input = [] → exec (.inp a) s = .next s) ∧
    (destOf s.params.regOnlyDest.inp a = none → Faults (.inp a) s .invalidOperand)

/-! ### The step -/

/-- R70, R72: where the cells at pc hold words that decode to an instruction, a step of a running core is the execution
of that instruction; the step adds nothing around it. -/
def Obligations.StepExecutesTheDecodedInstruction : Prop :=
  ∀ (s : State) (ws : List Raw) (i : Instr), s.run = .running → decode ws = .ok (i, []) →
    (∀ k, k < ws.length → s.readCell (s.pc.toNat + k) = ws[k]?) → step s = exec i s

/-- R61: a step starts only when RUN is Running. Where the opcode cell cannot be read it faults UndefinedAddress(pc):
always at 32768 and above, and on an unallocated cell under UNWRITTEN_READ = Fault; under Zero an unallocated cell reads
0, which is `halt`. It rests on D2 (the geometry), D3 (the policy) and D5 (the pc may reach 32768), the spec's own
choices, and on log entry 6 (the allocation bit is whether the memory lists the cell). -/
def Obligations.OpcodeFetchFaultsWhereNoCellReads : Prop :=
  ∀ s : State, (s.run ≠ .running → ∀ t, step s ≠ .next t) ∧ (s.run = .running →
    (s.readCell s.pc.toNat = none → ∃ t, step s = .next t ∧ FaultedWith (.undefinedAddress s.pc) s t) ∧
    (32768 ≤ s.pc.toNat → ∃ t, step s = .next t ∧ FaultedWith (.undefinedAddress s.pc) s t) ∧
    (s.allocated s.pc.toNat = false → s.params.unwrittenRead = .fault →
      ∃ t, step s = .next t ∧ FaultedWith (.undefinedAddress s.pc) s t) ∧
    (s.pc.toNat < 32768 → s.allocated s.pc.toNat = false → s.params.unwrittenRead = .zero → step s = exec .halt s))

/-- R62: the dispatch table has an entry for exactly the opcode words 0..21; another opcode word faults InvalidOpcode,
whatever cells follow it: the check comes before any operand fetch. -/
def Obligations.NonOpcodeWordFaults : Prop :=
  ∀ op : Raw, ((descriptor op).isSome = true ↔ op.toNat ≤ 21) ∧
    ∀ s : State, s.run = .running → s.readCell s.pc.toNat = some op → 21 < op.toNat →
      ∃ t, step s = .next t ∧ FaultedWith .invalidOpcode s t

/-- R63, in the order of R103 (D8, D9, the spec's own choices): the first operand cell that cannot be read faults
UndefinedAddress of its address, whatever the operand words before it are. -/
def Obligations.MissingOperandWordFaults : Prop :=
  ∀ (s : State) (op : Raw) (w k : Nat), s.run = .running → s.readCell s.pc.toNat = some op → widthOf op = some w →
    1 ≤ k → k < w → (∀ j, 1 ≤ j → j < k → s.readCell (s.pc.toNat + j) ≠ none) →
    s.readCell (s.pc.toNat + k) = none →
    ∃ t, step s = .next t ∧ FaultedWith (.undefinedAddress (s.pc + BitVec.ofNat 16 k)) s t

/-- R55, R68, in the order of R103 (D8, D9, the spec's own choices): where all operand cells can be read and one holds
32776 or more, the step faults InvalidOperand, before anything the execution could raise. -/
def Obligations.InvalidOperandWordFaults : Prop :=
  ∀ (s : State) (op v : Raw) (w k : Nat), s.run = .running → s.readCell s.pc.toNat = some op → widthOf op = some w →
    (∀ j, 1 ≤ j → j < w → s.readCell (s.pc.toNat + j) ≠ none) →
    1 ≤ k → k < w → s.readCell (s.pc.toNat + k) = some v → 32776 ≤ v.toNat →
    ∃ t, step s = .next t ∧ FaultedWith .invalidOperand s t

/-- R74: in Halted and Faulted no step is enabled, so there is no next state; the model's answer there is a fault of its
own (log entry 9), and it answers one nowhere else. -/
def Obligations.NoStepExactlyInTerminalStates : Prop :=
  ∀ s : State, (s.run ≠ .running → ∀ t, step s ≠ .next t) ∧ ((∃ f, step s = .fault f) ↔ s.run ≠ .running)

/-- R101 (FAULT_ADDR is D10, the spec's own choice), with the cause that R100 and the order of R103 (D9, the spec's own
choice; log entries 10 and 14) give the state: that of fetch and decode, else the register-only check, else the
execution-stage fault of the fetched instruction. Faults are precise. A step that ends in Faulted leaves the state before
it, plus the record of that cause; and where the state has a cause the step ends so. -/
def Obligations.FaultsArePrecise : Prop :=
  (∀ s t : State, step s = .next t → t.run = .faulted → ∃ c, stepCause s = some c ∧ FaultedWith c s t) ∧
  ∀ (s : State) (c : Cause), s.run = .running → stepCause s = some c → ∃ t, step s = .next t ∧ FaultedWith c s t

/-- The list of R100 of the kinds each instruction's execution can raise ([derived], with D13 for `call`). That
InvalidOperand for a destination that must be a register (R67, D7) is raised there, not in the decoder, is log entry 10
(DEDUCED). -/
def Obligations.ExecutionFaultsAreThoseListed : Prop :=
  ∀ (i : Instr) (s t : State), s.run = .running → exec i s = .next t → t.run = .faulted →
    t.faultKind ∈ executionFaults i

/-- R17 (no wrap: D5, the spec's own choice): every instruction that transfers no control, stops nothing and does not
wait sets the pc to pc + width, as natural numbers. -/
def Obligations.SequentialInstructionsAdvanceByWidth : Prop :=
  ∀ (i : Instr) (s t : State), isSequential i = true → s.run = .running → s.pc.toNat < 32768 →
    (∀ a, i = .inp a → s.input ≠ []) → exec i s = .next t → t.run = .running →
    t.pc.toNat = s.pc.toNat + i.width

/-- R44 ([derived]): a fetch sees every write committed before it, and not the write of its own step. A `wmem` that
writes cell k of the next instruction makes word k of the next fetch the stored word, whatever it is and if the opcode
word fetched there has that many words; the opcode word (k = 0) is always fetched. A stored opcode word above 21 makes
the next step fault InvalidOpcode; 0 makes it halt. A `wmem` that writes over its own words stores and goes on all the
same. -/
def Obligations.NextFetchSeesTheStoredOpcode : Prop :=
  ∀ (s : State) (a b : Operand), s.run = .running → fetch s = .ok (.wmem a b) →
    ∃ t, step s = .next t ∧ t.pc.toNat = s.pc.toNat + 3 ∧
      t.readCell (value s a).toNat = some ((value s b).setWidth 16) ∧
      (∀ k, (value s a).toNat = t.pc.toNat + k → k < (fetchWords t).length →
        (fetchWords t)[k]? = some ((value s b).setWidth 16)) ∧
      ((value s a).toNat = t.pc.toNat →
        (fetchWords t).head? = some ((value s b).setWidth 16) ∧
        (21 < (value s b).toNat → ∃ t', step t = .next t' ∧ FaultedWith .invalidOpcode t t') ∧
        ((value s b).toNat = 0 → step t = exec .halt t))

/-! ### Rules of the whole machine -/

/-- The machine's invariant (R16's bound on the pc is D5, R19's depth is D14, the canonical form is log entry 6): every
step keeps it, from every state that has it. -/
def Obligations.StepKeepsStateInvariant : Prop :=
  ∀ s t : State, StateInv s → step s = .next t → StateInv t

/-- The state after reset has the invariant; so has the reset state of every image and every choice of the parameters. -/
def Obligations.LaunchHasStateInvariant : Prop :=
  StateInv State.reset ∧ ∀ (p : Params) (image : List Raw) (s : State), State.boot p image = some s → StateInv s

/-- R38 (the write), R37: a step writes at most one cell: the one whose address the fetched instruction gives, its
destination's (R65, R66) or, for `wmem`, the value of its address operand (R87). Every other address reads as before, its
allocation bit as before; where the instruction stores to no cell, or fetch and decode give none, that is all of memory.
A step that ends in Faulted or Halted and a Wait write nothing. -/
def Obligations.StepWritesAtMostOneCell : Prop :=
  ∀ s t : State, step s = .next t →
    (∀ x, (∀ v, stepStoreAddress s = some v → x ≠ v.toNat) →
      t.readCell x = s.readCell x ∧ t.allocated x = s.allocated x) ∧
    (t.run ≠ .running → SameCells s t) ∧ (s.waiting = true → SameCells s t)

/-- R33: allocation is never removed; a step newly allocates only the cell it stores to, and it does allocate that one
unless it faults or waits (R36 with D4, the spec's own choice; log entry 14). With LaunchLoadsTheImage (the cells below
N) this is every way a cell is allocated. -/
def Obligations.AllocationIsNeverRemoved : Prop :=
  ∀ (s t : State) (a : Nat), step s = .next t →
    (s.allocated a = true → t.allocated a = true) ∧
    (s.allocated a = false → t.allocated a = true → ∃ v, stepStoreAddress s = some v ∧ a = v.toNat) ∧
    ∀ v, stepStoreAddress s = some v → t.run = .running → s.waiting = false → t.allocated v.toNat = true

/-- R45 ([derived]): writes store words only, so a cell holds 32768 or more only where it held that before. -/
def Obligations.StepsStoreWordsOnly : Prop :=
  ∀ (s t : State) (a : Nat) (v : Raw), step s = .next t → t.readCell a = some v → 32768 ≤ v.toNat →
    s.readCell a = some v

/-- R14, R27 ([derived] there): a register changes only as the register destination of one of the twelve writing
instructions. -/
def Obligations.RegistersChangeOnlyAsDestination : Prop :=
  ∀ (s t : State) (n : RegIdx), step s = .next t → t.readReg n ≠ s.readReg n →
    ∃ i, fetch s = .ok i ∧ destinationOperand i = some (.reg n)

/-- R27, R19 (the stack's row of the table): a step pushes at most one word, by `push` or `call`, or pops at most one, by
`pop` or `ret`; nothing below the top is reached. -/
def Obligations.StackChangesByOnePushOrPop : Prop :=
  ∀ s t : State, step s = .next t →
    t.stack = s.stack ∨
    (∃ w a, t.stack = w :: s.stack ∧ (fetch s = .ok (.push a) ∨ fetch s = .ok (.call a))) ∨
    ∃ w, s.stack = w :: t.stack ∧ (fetch s = .ok .ret ∨ ∃ a, fetch s = .ok (.pop a))

/-- R22, R23: RUN becomes Halted only by `halt`; while a step does not end in Faulted the fault record stays as it is. -/
def Obligations.RunStatusAndRecordAreWrittenOnlyAtTheEnd : Prop :=
  ∀ s t : State, step s = .next t →
    (t.run = .halted → fetch s = .ok .halt) ∧ (t.run ≠ .faulted → SameRecord s t)

/-- R97, R99 (the streams as lists are log entry 4): the output grows only by one event of a committed `out`, with its
value; the input shrinks only by the next word, taken by an `in`. -/
def Obligations.BoundaryMovesOneWordAtATime : Prop :=
  ∀ s t : State, step s = .next t →
    (t.output = s.output ∨ ∃ a, fetch s = .ok (.out a) ∧ t.output = s.output ++ [value s a]) ∧
    (t.input = s.input ∨ ∃ a w, fetch s = .ok (.inp a) ∧ s.input = w :: t.input)

/-- R35 (the policy is fixed for the whole run) and R67, R19 for the other parameters: no step changes the launch
parameters. That they stand in State is log entry 5. -/
def Obligations.StepsKeepLaunchParameters : Prop :=
  ∀ s t : State, step s = .next t → t.params = s.params

/-- R24: a program has no read access to the fault record. Nor has it one to the output events (R96, R99: no
instruction reads them back) or to the model's counter of free values. That the output stands in State as a list and
that there is a counter are the model's choices (log entries 4 and 2). Two states that differ only in these take steps
to states that differ only in these. -/
def Obligations.StepsDoNotReadTheFaultRecord : Prop :=
  ∀ s s' t : State, SameForProgram s s' → step s = .next t → ∃ t', step s' = .next t' ∧ SameForProgram t t'

/-- R11: under the default unbounded stack, every step of a running core ends in one of the four ways: it continues (RUN
stays Running), halts, enters the fault that is its cause (nothing changes but the record), or waits (only at an `in`;
nothing changes). -/
def Obligations.RunningStepEndsInOneOfFourWays : Prop :=
  ∀ s : State, s.run = .running → s.params.stackDepth = none →
    ∃ e, s.stepEnd = some e ∧
      match e with
      | .continued t => step s = .next t ∧ t.run = .running
      | .halted t => step s = .next t ∧ t.run = .halted
      | .faulted t => step s = .next t ∧ ∃ c, stepCause s = some c ∧ FaultedWith c s t
      | .wait => step s = .next s ∧ s.input = [] ∧ ∃ a, fetch s = .ok (.inp a)

/-! ### Reset, launch, image and listing -/

/-- R26, the values the spec gives: registers 0, pc 0, stack empty, RUN Running; no cell is allocated without an image
(N = 0, log entry 8; UNWRITTEN_READ = Fault is the default of D3). -/
def Obligations.ResetLeavesTheSpecsValues : Prop :=
  (∀ n, State.reset.readReg n = 0) ∧ State.reset.pc = 0 ∧ State.reset.stack = [] ∧ State.reset.run = .running ∧
    (∀ a, State.reset.readCell a = none ∧ State.reset.allocated a = false) ∧ State.reset.params.stackDepth = none

/-- R116, R117, R33 (N ≤ 32768 is D2, the policy is D3): launching an image gives cells 0..N-1 its words, allocates
exactly these (log entry 6), leaves the others to the policy, and gives registers, stack, pc and RUN their reset values;
a larger image is refused (I18). -/
def Obligations.LaunchLoadsTheImage : Prop :=
  ∀ (p : Params) (image : List Raw),
    (image.length ≤ 32768 → ∃ s, State.boot p image = some s ∧ s.params = p ∧
      (∀ a, a < image.length → s.readCell a = image[a]?) ∧
      (∀ a, image.length ≤ a → a < 32768 → s.readCell a = unlisted p.unwrittenRead) ∧
      (∀ a, s.allocated a = decide (a < image.length)) ∧
      (∀ n, s.readReg n = 0) ∧ s.stack = [] ∧ s.pc = 0 ∧ s.run = .running) ∧
    (32768 < image.length → State.boot p image = none)

/-- R32 ([derived], with the general-knowledge reading G2 of little-endian): the bytes of a word sequence, low byte
first, are read back as that sequence; an odd number of bytes is refused (I18). -/
def Obligations.ImageBytesAreLittleEndian : Prop :=
  (∀ ws : List Raw, imageOfBytes (ws.flatMap fun w : Raw => [BitVec.setWidth 8 w, BitVec.setWidth 8 (w >>> 8)]) = some ws) ∧
  ∀ bs : List (BitVec 8), bs.length % 2 = 1 → imageOfBytes bs = none

/-- R60, with R54 ([derived]) and R59's form: an opcode word 0..21 makes the listing advance the address by exactly its
width, whatever words follow it; and the listing of an instruction's words prints the table's mnemonic and the operands.
-/
def Obligations.ListingAdvancesByWidth : Prop :=
  (∀ (op : Raw) (ws : List Raw) (addr w : Nat), widthOf op = some w → (listing (op :: ws) addr).2 = addr + w) ∧
  ∀ (i : Instr) (rest : List Raw) (addr : Nat),
    listing (encode i ++ rest) addr = (listInstr i, addr + (encode i).length) ∧
    ∃ d, descriptor (BitVec.ofNat 16 i.opcode) = some d ∧ d.mnemonic = mnemonicOf i ∧
      d.width = (encode i).length
end

