-- ==== Sys2Proof/Laws/Decode.lean ====
section
/-! SUPPORT. The laws of operand words and of the table: what the decoder's parts answer. -/

namespace Sys2Proof

/-- A word's operand classes do not lose a bit: decoding the operand word of an operand gives it back. -/
@[simp] theorem decodeOperand_encodeOperand (o : Operand) : decodeOperand (encodeOperand o) = some o := by
  cases o with
  | lit v =>
    have hv := v.isLt
    have h : (encodeOperand (.lit v)).toNat = v.toNat := by
      simp only [encodeOperand, BitVec.toNat_setWidth]; omega
    rw [decodeOperand, if_pos (by omega)]
    congr 2
    apply BitVec.eq_of_toNat_eq
    simp only [encodeOperand, BitVec.toNat_setWidth]; omega
  | reg n =>
    have hn := n.isLt
    have h : (encodeOperand (.reg n)).toNat = 32768 + n.val := by
      simp only [encodeOperand, BitVec.toNat_ofNat]; omega
    rw [decodeOperand, if_neg (by omega), dif_pos (by omega)]
    simp only [h, Nat.add_sub_cancel_left]

/-- An operand word that decodes is the operand word of what it decodes to. -/
theorem encodeOperand_of_decodeOperand {num : Raw} {o : Operand} (h : decodeOperand num = some o) :
    encodeOperand o = num := by
  have hn := num.isLt
  unfold decodeOperand at h
  split at h
  · cases h
    apply BitVec.eq_of_toNat_eq
    simp only [encodeOperand, BitVec.toNat_setWidth]; omega
  · split at h
    · cases h
      apply BitVec.eq_of_toNat_eq
      simp only [encodeOperand, BitVec.toNat_ofNat]; omega
    · cases h

/-- Format W2 answers an instruction only on one valid operand word. -/
theorem decodeW2_ok {f : Operand → Instr} {ws rest : List Raw} {i : Instr} (h : decodeW2 f ws = .ok (i, rest)) :
    ∃ a, i = f a ∧ ws = encodeOperand a :: rest := by
  unfold decodeW2 at h
  split at h
  · split at h
    · cases h
    · rename_i ha
      cases h
      exact ⟨_, rfl, by rw [encodeOperand_of_decodeOperand ha]⟩
  · cases h

/-- Format W3 answers an instruction only on two valid operand words. -/
theorem decodeW3_ok {f : Operand → Operand → Instr} {ws rest : List Raw} {i : Instr}
    (h : decodeW3 f ws = .ok (i, rest)) :
    ∃ a b, i = f a b ∧ ws = encodeOperand a :: encodeOperand b :: rest := by
  unfold decodeW3 at h
  split at h
  · split at h
    · cases h
    · rename_i ha
      split at h
      · cases h
      · rename_i hb
        cases h
        exact ⟨_, _, rfl, by rw [encodeOperand_of_decodeOperand ha, encodeOperand_of_decodeOperand hb]⟩
  · cases h

/-- Format W4 answers an instruction only on three valid operand words. -/
theorem decodeW4_ok {f : Operand → Operand → Operand → Instr} {ws rest : List Raw} {i : Instr}
    (h : decodeW4 f ws = .ok (i, rest)) :
    ∃ a b c, i = f a b c ∧ ws = encodeOperand a :: encodeOperand b :: encodeOperand c :: rest := by
  unfold decodeW4 at h
  split at h
  · split at h
    · cases h
    · rename_i ha
      split at h
      · cases h
      · rename_i hb
        split at h
        · cases h
        · rename_i hc
          cases h
          exact ⟨_, _, _, rfl, by
            rw [encodeOperand_of_decodeOperand ha, encodeOperand_of_decodeOperand hb,
              encodeOperand_of_decodeOperand hc]⟩
  · cases h

theorem decodeW2_encode (f : Operand → Instr) (a : Operand) (rest : List Raw) :
    decodeW2 f (encodeOperand a :: rest) = .ok (f a, rest) := by simp [decodeW2]

theorem decodeW3_encode (f : Operand → Operand → Instr) (a b : Operand) (rest : List Raw) :
    decodeW3 f (encodeOperand a :: encodeOperand b :: rest) = .ok (f a b, rest) := by simp [decodeW3]

theorem decodeW4_encode (f : Operand → Operand → Operand → Instr) (a b c : Operand) (rest : List Raw) :
    decodeW4 f (encodeOperand a :: encodeOperand b :: encodeOperand c :: rest) = .ok (f a b c, rest) := by
  simp [decodeW4]

end Sys2Proof
end

