-- ==== Sys2Proof/Laws/State.lean ====
section
/-! SUPPORT. One lemma per field per update of the state, so that no proof unfolds a record update. -/

namespace Sys2Proof.Machine

variable (s : State)

@[simp] theorem State.writeReg_regs (n : RegIdx) (v : Word) : (s.writeReg n v).regs = s.regs.set n v := rfl
@[simp] theorem State.writeReg_pc (n : RegIdx) (v : Word) : (s.writeReg n v).pc = s.pc := rfl
@[simp] theorem State.writeReg_stack (n : RegIdx) (v : Word) : (s.writeReg n v).stack = s.stack := rfl
@[simp] theorem State.writeReg_mem (n : RegIdx) (v : Word) : (s.writeReg n v).mem = s.mem := rfl
@[simp] theorem State.writeReg_run (n : RegIdx) (v : Word) : (s.writeReg n v).run = s.run := rfl
@[simp] theorem State.writeReg_faultKind (n : RegIdx) (v : Word) : (s.writeReg n v).faultKind = s.faultKind := rfl
@[simp] theorem State.writeReg_faultPc (n : RegIdx) (v : Word) : (s.writeReg n v).faultPc = s.faultPc := rfl
@[simp] theorem State.writeReg_faultAddr (n : RegIdx) (v : Word) : (s.writeReg n v).faultAddr = s.faultAddr := rfl
@[simp] theorem State.writeReg_input (n : RegIdx) (v : Word) : (s.writeReg n v).input = s.input := rfl
@[simp] theorem State.writeReg_output (n : RegIdx) (v : Word) : (s.writeReg n v).output = s.output := rfl
@[simp] theorem State.writeReg_params (n : RegIdx) (v : Word) : (s.writeReg n v).params = s.params := rfl
@[simp] theorem State.writeReg_freeDraws (n : RegIdx) (v : Word) : (s.writeReg n v).freeDraws = s.freeDraws := rfl

@[simp] theorem State.writeCell_regs (a v : Word) : (s.writeCell a v).regs = s.regs := rfl
@[simp] theorem State.writeCell_pc (a v : Word) : (s.writeCell a v).pc = s.pc := rfl
@[simp] theorem State.writeCell_stack (a v : Word) : (s.writeCell a v).stack = s.stack := rfl
@[simp] theorem State.writeCell_mem (a v : Word) : (s.writeCell a v).mem = s.mem.write a.toNat (rawOfWord v) := rfl
@[simp] theorem State.writeCell_run (a v : Word) : (s.writeCell a v).run = s.run := rfl
@[simp] theorem State.writeCell_faultKind (a v : Word) : (s.writeCell a v).faultKind = s.faultKind := rfl
@[simp] theorem State.writeCell_faultPc (a v : Word) : (s.writeCell a v).faultPc = s.faultPc := rfl
@[simp] theorem State.writeCell_faultAddr (a v : Word) : (s.writeCell a v).faultAddr = s.faultAddr := rfl
@[simp] theorem State.writeCell_input (a v : Word) : (s.writeCell a v).input = s.input := rfl
@[simp] theorem State.writeCell_output (a v : Word) : (s.writeCell a v).output = s.output := rfl
@[simp] theorem State.writeCell_params (a v : Word) : (s.writeCell a v).params = s.params := rfl
@[simp] theorem State.writeCell_freeDraws (a v : Word) : (s.writeCell a v).freeDraws = s.freeDraws := rfl

@[simp] theorem State.advance_regs (w : Nat) : (s.advance w).regs = s.regs := rfl
@[simp] theorem State.advance_pc (w : Nat) : (s.advance w).pc = s.next w := rfl
@[simp] theorem State.advance_stack (w : Nat) : (s.advance w).stack = s.stack := rfl
@[simp] theorem State.advance_mem (w : Nat) : (s.advance w).mem = s.mem := rfl
@[simp] theorem State.advance_run (w : Nat) : (s.advance w).run = s.run := rfl
@[simp] theorem State.advance_faultKind (w : Nat) : (s.advance w).faultKind = s.faultKind := rfl
@[simp] theorem State.advance_faultPc (w : Nat) : (s.advance w).faultPc = s.faultPc := rfl
@[simp] theorem State.advance_faultAddr (w : Nat) : (s.advance w).faultAddr = s.faultAddr := rfl
@[simp] theorem State.advance_input (w : Nat) : (s.advance w).input = s.input := rfl
@[simp] theorem State.advance_output (w : Nat) : (s.advance w).output = s.output := rfl
@[simp] theorem State.advance_params (w : Nat) : (s.advance w).params = s.params := rfl
@[simp] theorem State.advance_freeDraws (w : Nat) : (s.advance w).freeDraws = s.freeDraws := rfl

@[simp] theorem State.jump_regs (v : Word) : (s.jump v).regs = s.regs := rfl
@[simp] theorem State.jump_pc (v : Word) : (s.jump v).pc = rawOfWord v := rfl
@[simp] theorem State.jump_stack (v : Word) : (s.jump v).stack = s.stack := rfl
@[simp] theorem State.jump_mem (v : Word) : (s.jump v).mem = s.mem := rfl
@[simp] theorem State.jump_run (v : Word) : (s.jump v).run = s.run := rfl
@[simp] theorem State.jump_faultKind (v : Word) : (s.jump v).faultKind = s.faultKind := rfl
@[simp] theorem State.jump_faultPc (v : Word) : (s.jump v).faultPc = s.faultPc := rfl
@[simp] theorem State.jump_faultAddr (v : Word) : (s.jump v).faultAddr = s.faultAddr := rfl
@[simp] theorem State.jump_input (v : Word) : (s.jump v).input = s.input := rfl
@[simp] theorem State.jump_output (v : Word) : (s.jump v).output = s.output := rfl
@[simp] theorem State.jump_params (v : Word) : (s.jump v).params = s.params := rfl
@[simp] theorem State.jump_freeDraws (v : Word) : (s.jump v).freeDraws = s.freeDraws := rfl

@[simp] theorem State.pushWord_regs (v : Word) : (s.pushWord v).regs = s.regs := rfl
@[simp] theorem State.pushWord_pc (v : Word) : (s.pushWord v).pc = s.pc := rfl
@[simp] theorem State.pushWord_stack (v : Word) : (s.pushWord v).stack = v :: s.stack := rfl
@[simp] theorem State.pushWord_mem (v : Word) : (s.pushWord v).mem = s.mem := rfl
@[simp] theorem State.pushWord_run (v : Word) : (s.pushWord v).run = s.run := rfl
@[simp] theorem State.pushWord_faultKind (v : Word) : (s.pushWord v).faultKind = s.faultKind := rfl
@[simp] theorem State.pushWord_faultPc (v : Word) : (s.pushWord v).faultPc = s.faultPc := rfl
@[simp] theorem State.pushWord_faultAddr (v : Word) : (s.pushWord v).faultAddr = s.faultAddr := rfl
@[simp] theorem State.pushWord_input (v : Word) : (s.pushWord v).input = s.input := rfl
@[simp] theorem State.pushWord_output (v : Word) : (s.pushWord v).output = s.output := rfl
@[simp] theorem State.pushWord_params (v : Word) : (s.pushWord v).params = s.params := rfl
@[simp] theorem State.pushWord_freeDraws (v : Word) : (s.pushWord v).freeDraws = s.freeDraws := rfl

@[simp] theorem State.dropTop_regs : s.dropTop.regs = s.regs := rfl
@[simp] theorem State.dropTop_pc : s.dropTop.pc = s.pc := rfl
@[simp] theorem State.dropTop_stack : s.dropTop.stack = s.stack.tail := rfl
@[simp] theorem State.dropTop_mem : s.dropTop.mem = s.mem := rfl
@[simp] theorem State.dropTop_run : s.dropTop.run = s.run := rfl
@[simp] theorem State.dropTop_faultKind : s.dropTop.faultKind = s.faultKind := rfl
@[simp] theorem State.dropTop_faultPc : s.dropTop.faultPc = s.faultPc := rfl
@[simp] theorem State.dropTop_faultAddr : s.dropTop.faultAddr = s.faultAddr := rfl
@[simp] theorem State.dropTop_input : s.dropTop.input = s.input := rfl
@[simp] theorem State.dropTop_output : s.dropTop.output = s.output := rfl
@[simp] theorem State.dropTop_params : s.dropTop.params = s.params := rfl
@[simp] theorem State.dropTop_freeDraws : s.dropTop.freeDraws = s.freeDraws := rfl

@[simp] theorem State.emit_regs (w : Word) : (s.emit w).regs = s.regs := rfl
@[simp] theorem State.emit_pc (w : Word) : (s.emit w).pc = s.pc := rfl
@[simp] theorem State.emit_stack (w : Word) : (s.emit w).stack = s.stack := rfl
@[simp] theorem State.emit_mem (w : Word) : (s.emit w).mem = s.mem := rfl
@[simp] theorem State.emit_run (w : Word) : (s.emit w).run = s.run := rfl
@[simp] theorem State.emit_faultKind (w : Word) : (s.emit w).faultKind = s.faultKind := rfl
@[simp] theorem State.emit_faultPc (w : Word) : (s.emit w).faultPc = s.faultPc := rfl
@[simp] theorem State.emit_faultAddr (w : Word) : (s.emit w).faultAddr = s.faultAddr := rfl
@[simp] theorem State.emit_input (w : Word) : (s.emit w).input = s.input := rfl
@[simp] theorem State.emit_output (w : Word) : (s.emit w).output = s.output ++ [w] := rfl
@[simp] theorem State.emit_params (w : Word) : (s.emit w).params = s.params := rfl
@[simp] theorem State.emit_freeDraws (w : Word) : (s.emit w).freeDraws = s.freeDraws := rfl

@[simp] theorem State.dropInput_regs : s.dropInput.regs = s.regs := rfl
@[simp] theorem State.dropInput_pc : s.dropInput.pc = s.pc := rfl
@[simp] theorem State.dropInput_stack : s.dropInput.stack = s.stack := rfl
@[simp] theorem State.dropInput_mem : s.dropInput.mem = s.mem := rfl
@[simp] theorem State.dropInput_run : s.dropInput.run = s.run := rfl
@[simp] theorem State.dropInput_faultKind : s.dropInput.faultKind = s.faultKind := rfl
@[simp] theorem State.dropInput_faultPc : s.dropInput.faultPc = s.faultPc := rfl
@[simp] theorem State.dropInput_faultAddr : s.dropInput.faultAddr = s.faultAddr := rfl
@[simp] theorem State.dropInput_input : s.dropInput.input = s.input.tail := rfl
@[simp] theorem State.dropInput_output : s.dropInput.output = s.output := rfl
@[simp] theorem State.dropInput_params : s.dropInput.params = s.params := rfl
@[simp] theorem State.dropInput_freeDraws : s.dropInput.freeDraws = s.freeDraws := rfl

@[simp] theorem State.halt_regs : s.halt.regs = s.regs := rfl
@[simp] theorem State.halt_pc : s.halt.pc = s.pc := rfl
@[simp] theorem State.halt_stack : s.halt.stack = s.stack := rfl
@[simp] theorem State.halt_mem : s.halt.mem = s.mem := rfl
@[simp] theorem State.halt_run : s.halt.run = .halted := rfl
@[simp] theorem State.halt_faultKind : s.halt.faultKind = s.faultKind := rfl
@[simp] theorem State.halt_faultPc : s.halt.faultPc = s.faultPc := rfl
@[simp] theorem State.halt_faultAddr : s.halt.faultAddr = s.faultAddr := rfl
@[simp] theorem State.halt_input : s.halt.input = s.input := rfl
@[simp] theorem State.halt_output : s.halt.output = s.output := rfl
@[simp] theorem State.halt_params : s.halt.params = s.params := rfl
@[simp] theorem State.halt_freeDraws : s.halt.freeDraws = s.freeDraws := rfl

@[simp] theorem State.enterFault_regs (c : Cause) : (s.enterFault c).regs = s.regs := rfl
@[simp] theorem State.enterFault_pc (c : Cause) : (s.enterFault c).pc = s.pc := rfl
@[simp] theorem State.enterFault_stack (c : Cause) : (s.enterFault c).stack = s.stack := rfl
@[simp] theorem State.enterFault_mem (c : Cause) : (s.enterFault c).mem = s.mem := rfl
@[simp] theorem State.enterFault_run (c : Cause) : (s.enterFault c).run = .faulted := rfl
@[simp] theorem State.enterFault_faultKind (c : Cause) : (s.enterFault c).faultKind = c.kind := rfl
@[simp] theorem State.enterFault_faultPc (c : Cause) : (s.enterFault c).faultPc = s.pc := rfl
@[simp] theorem State.enterFault_faultAddr (c : Cause) : (s.enterFault c).faultAddr = c.recordedAddr s.freeDraws := rfl
@[simp] theorem State.enterFault_input (c : Cause) : (s.enterFault c).input = s.input := rfl
@[simp] theorem State.enterFault_output (c : Cause) : (s.enterFault c).output = s.output := rfl
@[simp] theorem State.enterFault_params (c : Cause) : (s.enterFault c).params = s.params := rfl
@[simp] theorem State.enterFault_freeDraws (c : Cause) : (s.enterFault c).freeDraws = s.freeDraws + c.draws := rfl

@[simp] theorem State.withWordsAtPc_regs (ws : List Raw) : (s.withWordsAtPc ws).regs = s.regs := rfl
@[simp] theorem State.withWordsAtPc_pc (ws : List Raw) : (s.withWordsAtPc ws).pc = s.pc := rfl
@[simp] theorem State.withWordsAtPc_stack (ws : List Raw) : (s.withWordsAtPc ws).stack = s.stack := rfl
@[simp] theorem State.withWordsAtPc_mem (ws : List Raw) : (s.withWordsAtPc ws).mem = s.mem.load s.pc.toNat ws := rfl
@[simp] theorem State.withWordsAtPc_run (ws : List Raw) : (s.withWordsAtPc ws).run = .running := rfl
@[simp] theorem State.withWordsAtPc_faultKind (ws : List Raw) : (s.withWordsAtPc ws).faultKind = s.faultKind := rfl
@[simp] theorem State.withWordsAtPc_faultPc (ws : List Raw) : (s.withWordsAtPc ws).faultPc = s.faultPc := rfl
@[simp] theorem State.withWordsAtPc_faultAddr (ws : List Raw) : (s.withWordsAtPc ws).faultAddr = s.faultAddr := rfl
@[simp] theorem State.withWordsAtPc_input (ws : List Raw) : (s.withWordsAtPc ws).input = s.input := rfl
@[simp] theorem State.withWordsAtPc_output (ws : List Raw) : (s.withWordsAtPc ws).output = s.output := rfl
@[simp] theorem State.withWordsAtPc_params (ws : List Raw) : (s.withWordsAtPc ws).params = s.params := rfl
@[simp] theorem State.withWordsAtPc_freeDraws (ws : List Raw) : (s.withWordsAtPc ws).freeDraws = s.freeDraws := rfl

@[simp] theorem State.supplyInput_regs (w : Word) : (s.supplyInput w).regs = s.regs := rfl
@[simp] theorem State.supplyInput_pc (w : Word) : (s.supplyInput w).pc = s.pc := rfl
@[simp] theorem State.supplyInput_stack (w : Word) : (s.supplyInput w).stack = s.stack := rfl
@[simp] theorem State.supplyInput_mem (w : Word) : (s.supplyInput w).mem = s.mem := rfl
@[simp] theorem State.supplyInput_run (w : Word) : (s.supplyInput w).run = s.run := rfl
@[simp] theorem State.supplyInput_faultKind (w : Word) : (s.supplyInput w).faultKind = s.faultKind := rfl
@[simp] theorem State.supplyInput_faultPc (w : Word) : (s.supplyInput w).faultPc = s.faultPc := rfl
@[simp] theorem State.supplyInput_faultAddr (w : Word) : (s.supplyInput w).faultAddr = s.faultAddr := rfl
@[simp] theorem State.supplyInput_input (w : Word) : (s.supplyInput w).input = s.input ++ [w] := rfl
@[simp] theorem State.supplyInput_output (w : Word) : (s.supplyInput w).output = s.output := rfl
@[simp] theorem State.supplyInput_params (w : Word) : (s.supplyInput w).params = s.params := rfl
@[simp] theorem State.supplyInput_freeDraws (w : Word) : (s.supplyInput w).freeDraws = s.freeDraws := rfl

end Sys2Proof.Machine
end

