-- ==== Sys2Proof/Laws/Memory.lean ====
section
/-! SUPPORT. The laws of memory: a read after a write, and the canonical form every memory operation keeps. -/

namespace Sys2Proof.Machine

theorem Memory.find_insert (m : Memory) (a : Nat) (v : Raw) (x : Nat) :
    (m.insert a v).find x = if x = a then some v else m.find x := by
  induction m with
  | nil => simp [Memory.insert, Memory.find]
  | cons e m ih =>
    obtain ⟨k, w⟩ := e
    simp only [Memory.insert]
    split
    · simp [Memory.find]
    · split
      · subst k
        by_cases hx : x = a <;> simp [Memory.find, hx]
      · simp only [Memory.find, ih]
        split <;> split <;> simp_all

/-- A read after a write, in every memory, canonical or not: the value written at the address written (where a cell is
there), the old reading elsewhere. -/
theorem Memory.read_write (u : UnwrittenRead) (m : Memory) (a : Nat) (v : Raw) (x : Nat) :
    (m.write a v).read u x = if x = a ∧ a < memCells then some v else m.read u x := by
  by_cases ha : a < memCells
  · by_cases hx : x = a
    · subst hx; simp [Memory.read, Memory.write, Memory.find_insert, ha]
    · simp [Memory.read, Memory.write, Memory.find_insert, ha, hx]
  · simp [Memory.write, ha]

/-- The allocation bits after a write (R36): the cell written is allocated, every other bit is as before. -/
theorem Memory.allocated_write (m : Memory) (a : Nat) (v : Raw) (x : Nat) :
    (m.write a v).allocated x = if x = a ∧ a < memCells then true else m.allocated x := by
  by_cases ha : a < memCells
  · by_cases hx : x = a
    · subst hx; simp [Memory.allocated, Memory.write, Memory.find_insert, ha]
    · simp [Memory.allocated, Memory.write, Memory.find_insert, ha, hx]
  · simp [Memory.write, ha]

/-- R34: an allocated cell is read as what is listed for it; so the policy is asked only where the bit is off (R35). -/
theorem Memory.read_eq (u : UnwrittenRead) (m : Memory) (a : Nat) :
    m.read u a = if m.allocated a then m.find a else if a < memCells then unlisted u else none := by
  by_cases ha : a < memCells
  · cases hf : m.find a <;> simp [Memory.read, Memory.allocated, ha, hf]
  · simp [Memory.read, Memory.allocated, ha]

theorem Memory.read_lt {u : UnwrittenRead} {m : Memory} {a : Nat} {v : Raw} (h : m.read u a = some v) :
    a < memCells := by
  unfold Memory.read at h
  split at h
  · assumption
  · cases h

/-- The cells after a load: the words loaded where they lie in memory, the old reading elsewhere. -/
theorem Memory.read_load (u : UnwrittenRead) (ws : List Raw) (m : Memory) (a x : Nat) :
    (m.load a ws).read u x =
      if a ≤ x ∧ x < a + ws.length ∧ x < memCells then ws[x - a]? else m.read u x := by
  induction ws generalizing m a with
  | nil => simp [Memory.load]; intros; omega
  | cons w ws ih =>
    simp only [Memory.load, ih, Memory.read_write, List.length_cons]
    by_cases hx : x = a
    · subst hx
      by_cases hc : x < memCells <;> simp [hc]
    · simp only [hx, false_and, if_false]
      by_cases hc : a ≤ x ∧ x < a + (ws.length + 1) ∧ x < memCells
      · have h1 : x - a = (x - (a + 1)) + 1 := by omega
        rw [if_pos (by omega), if_pos hc, h1, List.getElem?_cons_succ]
      · rw [if_neg (by omega), if_neg hc]

/-- The allocation bits after a load (R116): the cells of the words loaded are allocated, every other bit is as
before. -/
theorem Memory.allocated_load (ws : List Raw) (m : Memory) (a x : Nat) :
    (m.load a ws).allocated x =
      if a ≤ x ∧ x < a + ws.length ∧ x < memCells then true else m.allocated x := by
  induction ws generalizing m a with
  | nil => simp [Memory.load]; intros; omega
  | cons w ws ih =>
    simp only [Memory.load, ih, Memory.allocated_write, List.length_cons]
    by_cases hx : x = a
    · subst hx
      by_cases hc : x < memCells <;> simp [hc]
    · simp only [hx, false_and, if_false]
      by_cases hc : a ≤ x ∧ x < a + (ws.length + 1) ∧ x < memCells
      · rw [if_pos (by omega), if_pos hc]
      · rw [if_neg (by omega), if_neg hc]

/-! ### The canonical form -/

theorem Memory.wf_nil : Memory.wf [] := by simp [Memory.wf]

theorem Memory.mem_insert {m : Memory} {a : Nat} {v : Raw} {e : Nat × Raw} (h : e ∈ m.insert a v) :
    e = (a, v) ∨ e ∈ m := by
  induction m with
  | nil => simpa [Memory.insert] using h
  | cons f m ih =>
    obtain ⟨k, w⟩ := f
    simp only [Memory.insert] at h
    split at h
    · simpa using h
    · split at h
      · rcases List.mem_cons.1 h with h | h
        · exact .inl h
        · exact .inr (List.mem_cons_of_mem _ h)
      · rcases List.mem_cons.1 h with h | h
        · exact .inr (by simp [h])
        · exact (ih h).imp_right (List.mem_cons_of_mem _)

theorem Memory.insert_rising {m : Memory} (a : Nat) (v : Raw) (h : m.Pairwise (fun x y => x.1 < y.1)) :
    (m.insert a v).Pairwise (fun x y => x.1 < y.1) := by
  induction m with
  | nil => simp [Memory.insert]
  | cons f m ih =>
    obtain ⟨k, w⟩ := f
    rw [List.pairwise_cons] at h
    simp only [Memory.insert]
    split
    · rename_i hlt
      refine List.pairwise_cons.2 ⟨fun e he => ?_, List.pairwise_cons.2 h⟩
      rcases List.mem_cons.1 he with rfl | he
      · exact hlt
      · exact hlt.trans (h.1 e he)
    · split
      · rename_i hk
        exact List.pairwise_cons.2 ⟨fun e he => hk ▸ h.1 e he, h.2⟩
      · refine List.pairwise_cons.2 ⟨fun e he => ?_, ih h.2⟩
        rcases Memory.mem_insert he with rfl | he
        · show k < a; omega
        · exact h.1 e he

/-- A write keeps the canonical form. -/
theorem Memory.write_wf {m : Memory} (a : Nat) (v : Raw) (h : m.wf) : (m.write a v).wf := by
  unfold Memory.write
  split
  · rename_i ha
    refine ⟨Memory.insert_rising a v h.1, fun e he => ?_⟩
    rcases Memory.mem_insert he with rfl | he
    · exact ha
    · exact h.2 e he
  · exact h

/-- A load keeps the canonical form. -/
theorem Memory.load_wf (ws : List Raw) {m : Memory} (a : Nat) (h : m.wf) : (m.load a ws).wf := by
  induction ws generalizing m a with
  | nil => exact h
  | cons w ws ih => exact ih (a + 1) (Memory.write_wf a w h)

theorem Memory.find_none_of_lt {m : Memory} {a : Nat} (h : ∀ e ∈ m, a < e.1) : m.find a = none := by
  induction m with
  | nil => rfl
  | cons f m ih =>
    obtain ⟨k, w⟩ := f
    have hk : a < k := h (k, w) (by simp)
    simp only [Memory.find]
    rw [if_neg (by omega)]
    exact ih fun e he => h e (List.mem_cons_of_mem _ he)

/-! ### Cells of a state -/

@[simp] theorem State.readCell_writeCell (s : State) (a v : Word) (x : Nat) :
    (s.writeCell a v).readCell x = if x = a.toNat then some (rawOfWord v) else s.readCell x := by
  have ha : a.toNat < memCells := a.isLt
  simp [State.readCell, Memory.read_write, ha]

@[simp] theorem State.allocated_writeCell (s : State) (a v : Word) (x : Nat) :
    (s.writeCell a v).allocated x = if x = a.toNat then true else s.allocated x := by
  have ha : a.toNat < memCells := a.isLt
  simp [State.allocated, Memory.allocated_write, ha]

theorem State.readCell_lt {s : State} {a : Nat} {v : Raw} (h : s.readCell a = some v) : a < memCells :=
  Memory.read_lt h

theorem State.readCell_congr {s t : State} (hm : t.mem = s.mem) (hp : t.params = s.params) (a : Nat) :
    t.readCell a = s.readCell a := by simp [State.readCell, hm, hp]

theorem State.allocated_congr {s t : State} (hm : t.mem = s.mem) (a : Nat) : t.allocated a = s.allocated a := by
  simp [State.allocated, hm]

end Sys2Proof.Machine
end

