-- ==== Sys2Proof/Laws/Operands.lean ====
section
/-! SUPPORT. What each operation does to the registers and cells as they are read, and the spec lemmas of the shared
operations over operands. -/

namespace Sys2Proof.Machine

variable (s : State)

@[simp] theorem State.readReg_writeReg (n m : RegIdx) (v : Word) :
    (s.writeReg n v).readReg m = if m = n then v else s.readReg m := by
  simp [State.readReg, State.writeReg, Vector.get_eq_getElem, Vector.getElem_set, Fin.ext_iff, eq_comm]

@[simp] theorem State.readCell_writeReg (n : RegIdx) (v : Word) (x : Nat) : (s.writeReg n v).readCell x = s.readCell x := rfl
@[simp] theorem State.allocated_writeReg (n : RegIdx) (v : Word) (x : Nat) : (s.writeReg n v).allocated x = s.allocated x := rfl
@[simp] theorem State.readReg_writeCell (a v : Word) (m : RegIdx) : (s.writeCell a v).readReg m = s.readReg m := rfl
@[simp] theorem State.readReg_advance (w : Nat) (m : RegIdx) : (s.advance w).readReg m = s.readReg m := rfl
@[simp] theorem State.readCell_advance (w : Nat) (x : Nat) : (s.advance w).readCell x = s.readCell x := rfl
@[simp] theorem State.allocated_advance (w : Nat) (x : Nat) : (s.advance w).allocated x = s.allocated x := rfl
@[simp] theorem State.readReg_jump (v : Word) (m : RegIdx) : (s.jump v).readReg m = s.readReg m := rfl
@[simp] theorem State.readCell_jump (v : Word) (x : Nat) : (s.jump v).readCell x = s.readCell x := rfl
@[simp] theorem State.allocated_jump (v : Word) (x : Nat) : (s.jump v).allocated x = s.allocated x := rfl
@[simp] theorem State.readReg_pushWord (v : Word) (m : RegIdx) : (s.pushWord v).readReg m = s.readReg m := rfl
@[simp] theorem State.readCell_pushWord (v : Word) (x : Nat) : (s.pushWord v).readCell x = s.readCell x := rfl
@[simp] theorem State.allocated_pushWord (v : Word) (x : Nat) : (s.pushWord v).allocated x = s.allocated x := rfl
@[simp] theorem State.readReg_dropTop (m : RegIdx) : s.dropTop.readReg m = s.readReg m := rfl
@[simp] theorem State.readCell_dropTop (x : Nat) : s.dropTop.readCell x = s.readCell x := rfl
@[simp] theorem State.allocated_dropTop (x : Nat) : s.dropTop.allocated x = s.allocated x := rfl
@[simp] theorem State.readReg_emit (w : Word) (m : RegIdx) : (s.emit w).readReg m = s.readReg m := rfl
@[simp] theorem State.readCell_emit (w : Word) (x : Nat) : (s.emit w).readCell x = s.readCell x := rfl
@[simp] theorem State.allocated_emit (w : Word) (x : Nat) : (s.emit w).allocated x = s.allocated x := rfl
@[simp] theorem State.readReg_dropInput (m : RegIdx) : s.dropInput.readReg m = s.readReg m := rfl
@[simp] theorem State.readCell_dropInput (x : Nat) : s.dropInput.readCell x = s.readCell x := rfl
@[simp] theorem State.allocated_dropInput (x : Nat) : s.dropInput.allocated x = s.allocated x := rfl
@[simp] theorem State.readReg_halt (m : RegIdx) : s.halt.readReg m = s.readReg m := rfl
@[simp] theorem State.readCell_halt (x : Nat) : s.halt.readCell x = s.readCell x := rfl
@[simp] theorem State.allocated_halt (x : Nat) : s.halt.allocated x = s.allocated x := rfl
@[simp] theorem State.readReg_enterFault (c : Cause) (m : RegIdx) : (s.enterFault c).readReg m = s.readReg m := rfl
@[simp] theorem State.readCell_enterFault (c : Cause) (x : Nat) : (s.enterFault c).readCell x = s.readCell x := rfl
@[simp] theorem State.allocated_enterFault (c : Cause) (x : Nat) : (s.enterFault c).allocated x = s.allocated x := rfl

@[simp] theorem State.writeDest_pc (d : Dest) (v : Word) : (s.writeDest d v).pc = s.pc := by cases d <;> rfl
@[simp] theorem State.writeDest_stack (d : Dest) (v : Word) : (s.writeDest d v).stack = s.stack := by cases d <;> rfl
@[simp] theorem State.writeDest_run (d : Dest) (v : Word) : (s.writeDest d v).run = s.run := by cases d <;> rfl
@[simp] theorem State.writeDest_faultKind (d : Dest) (v : Word) : (s.writeDest d v).faultKind = s.faultKind := by cases d <;> rfl
@[simp] theorem State.writeDest_faultPc (d : Dest) (v : Word) : (s.writeDest d v).faultPc = s.faultPc := by cases d <;> rfl
@[simp] theorem State.writeDest_faultAddr (d : Dest) (v : Word) : (s.writeDest d v).faultAddr = s.faultAddr := by cases d <;> rfl
@[simp] theorem State.writeDest_input (d : Dest) (v : Word) : (s.writeDest d v).input = s.input := by cases d <;> rfl
@[simp] theorem State.writeDest_output (d : Dest) (v : Word) : (s.writeDest d v).output = s.output := by cases d <;> rfl
@[simp] theorem State.writeDest_params (d : Dest) (v : Word) : (s.writeDest d v).params = s.params := by cases d <;> rfl
@[simp] theorem State.writeDest_freeDraws (d : Dest) (v : Word) : (s.writeDest d v).freeDraws = s.freeDraws := by cases d <;> rfl

@[simp] theorem State.next_writeReg (n : RegIdx) (v : Word) (w' : Nat) : (s.writeReg n v).next w' = s.next w' := rfl
@[simp] theorem State.next_writeCell (a v : Word) (w' : Nat) : (s.writeCell a v).next w' = s.next w' := rfl
@[simp] theorem State.next_writeDest (d : Dest) (v : Word) (w' : Nat) : (s.writeDest d v).next w' = s.next w' := by cases d <;> rfl
@[simp] theorem State.next_pushWord (v : Word) (w' : Nat) : (s.pushWord v).next w' = s.next w' := rfl
@[simp] theorem State.next_dropTop (w' : Nat) : s.dropTop.next w' = s.next w' := rfl
@[simp] theorem State.next_emit (w : Word) (w' : Nat) : (s.emit w).next w' = s.next w' := rfl
@[simp] theorem State.next_dropInput (w' : Nat) : s.dropInput.next w' = s.next w' := rfl

/-- R66: what WriteDest does to the registers and to every address of memory. -/
theorem wrote_writeDest (d : Dest) (v : Word) : Wrote d v s (s.writeDest d v) := by
  cases d with
  | reg n => exact ⟨fun m => by simp [State.writeDest, eq_comm], fun a => rfl, fun a => rfl⟩
  | mem a =>
    exact ⟨fun m => by simp [State.writeDest], fun x => by simp [State.writeDest, rawOfWord],
      fun x => by simp [State.writeDest]⟩

theorem destOf_reg (regOnly : Bool) (n : RegIdx) : destOf regOnly (.reg n) = some (.reg n) := rfl

theorem destOf_lit (regOnly : Bool) (v : Word) :
    destOf regOnly (.lit v) = if regOnly then none else some (.mem v) := rfl

/-- A good destination of a register operand is that register; of a literal, that cell. -/
theorem destOf_eq_some {regOnly : Bool} {a : Operand} {d : Dest} (h : destOf regOnly a = some d) : d = dest a := by
  cases a with
  | reg n => simpa [destOf, dest, eq_comm] using h
  | lit v => cases regOnly <;> simp_all [destOf, dest]

/-- `withDest`: with a good destination it goes on, with a bad one it enters InvalidOperand. -/
theorem withDest_some {regOnly : Bool} {a : Operand} {s : State} {k : Dest → Answer} {d : Dest}
    (h : destOf regOnly a = some d) : withDest regOnly a s k = k d := by simp [withDest, h]

theorem withDest_none {regOnly : Bool} {a : Operand} {s : State} {k : Dest → Answer}
    (h : destOf regOnly a = none) : withDest regOnly a s k = raise .invalidOperand s := by simp [withDest, h]

theorem withDest_cases (regOnly : Bool) (a : Operand) (s : State) (k : Dest → Answer) :
    (∃ d, destOf regOnly a = some d ∧ withDest regOnly a s k = k d) ∨
    (destOf regOnly a = none ∧ withDest regOnly a s k = raise .invalidOperand s) := by
  cases h : destOf regOnly a with
  | none => exact .inr ⟨rfl, withDest_none h⟩
  | some d => exact .inl ⟨d, rfl, withDest_some h⟩

/-- Fault entry: everything R101 says of it. -/
theorem faultedWith_enterFault (c : Cause) : FaultedWith c s (s.enterFault c) := by
  refine ⟨rfl, rfl, rfl, fun a ha => ?_, rfl, fun _ => rfl, fun _ => ⟨rfl, rfl⟩, rfl, ⟨rfl, rfl⟩, rfl⟩
  subst ha; rfl

/-- `finish`: the destination holds the result, the pc is advanced, nothing else changes. -/
theorem wroteResult_finish (d : Dest) (r : Word) (width : Nat) :
    WroteResult d r.toNat width s ((s.writeDest d r).advance width) := by
  refine ⟨⟨r, rfl, ?_⟩, ?_, ?_, ⟨?_, ?_⟩, ?_, ⟨?_, ?_, ?_⟩, ?_, ?_⟩
  · exact wrote_writeDest s d r
  all_goals simp [State.next]

/-- `writeResult`: an instruction that is one computes its word. -/
theorem computesWord_of_writeResult {i : Instr} {regOnly : Bool} {a : Operand} {r : Word} {width : Nat} {s : State}
    (h : exec i s = writeResult regOnly a r width s) : ComputesWord i regOnly a r.toNat width s := by
  refine ⟨fun d hd => ⟨_, ?_, wroteResult_finish s d r width⟩, fun hd => ⟨_, ?_, faultedWith_enterFault s _⟩⟩
  · rw [h, writeResult, withDest_some hd, finish]
  · rw [h, writeResult, withDest_none hd, raise]

theorem rawOfWord_toNat (v : Word) : (rawOfWord v).toNat = v.toNat := by
  have := v.isLt
  simp only [rawOfWord, BitVec.toNat_setWidth]
  omega

end Sys2Proof.Machine
end

