-- ==== Sys2Proof/Laws/PerInstr.lean ====
section
/-! SUPPORT. One lemma per constructor of Instr: the dispatch table's entry, the encoder and the syntax agree. -/

namespace Sys2Proof.Laws.TableEntry

/-- R46, R52, R53: the dispatch table has an entry at the instruction's opcode; its arity is the number of operands of
the term; its width is that of the encoded words. -/
def Statement (i : Instr) : Prop :=
  ∃ d, descriptor (BitVec.ofNat 16 i.opcode) = some d ∧ d.roles.length = i.operands.length ∧
    widthOf (BitVec.ofNat 16 i.opcode) = some (encode i).length

theorem halt : Statement .halt := ⟨_, rfl, rfl, rfl⟩
theorem set (a b : Operand) : Statement (.set a b) := ⟨_, rfl, rfl, rfl⟩
theorem push (a : Operand) : Statement (.push a) := ⟨_, rfl, rfl, rfl⟩
theorem pop (a : Operand) : Statement (.pop a) := ⟨_, rfl, rfl, rfl⟩
theorem eq (a b c : Operand) : Statement (.eq a b c) := ⟨_, rfl, rfl, rfl⟩
theorem gt (a b c : Operand) : Statement (.gt a b c) := ⟨_, rfl, rfl, rfl⟩
theorem jmp (a : Operand) : Statement (.jmp a) := ⟨_, rfl, rfl, rfl⟩
theorem jt (a b : Operand) : Statement (.jt a b) := ⟨_, rfl, rfl, rfl⟩
theorem jf (a b : Operand) : Statement (.jf a b) := ⟨_, rfl, rfl, rfl⟩
theorem add (a b c : Operand) : Statement (.add a b c) := ⟨_, rfl, rfl, rfl⟩
theorem mult (a b c : Operand) : Statement (.mult a b c) := ⟨_, rfl, rfl, rfl⟩
theorem mod (a b c : Operand) : Statement (.mod a b c) := ⟨_, rfl, rfl, rfl⟩
theorem and (a b c : Operand) : Statement (.and a b c) := ⟨_, rfl, rfl, rfl⟩
theorem or (a b c : Operand) : Statement (.or a b c) := ⟨_, rfl, rfl, rfl⟩
theorem not (a b : Operand) : Statement (.not a b) := ⟨_, rfl, rfl, rfl⟩
theorem rmem (a b : Operand) : Statement (.rmem a b) := ⟨_, rfl, rfl, rfl⟩
theorem wmem (a b : Operand) : Statement (.wmem a b) := ⟨_, rfl, rfl, rfl⟩
theorem call (a : Operand) : Statement (.call a) := ⟨_, rfl, rfl, rfl⟩
theorem ret : Statement .ret := ⟨_, rfl, rfl, rfl⟩
theorem out (a : Operand) : Statement (.out a) := ⟨_, rfl, rfl, rfl⟩
theorem inp (a : Operand) : Statement (.inp a) := ⟨_, rfl, rfl, rfl⟩
theorem noop : Statement .noop := ⟨_, rfl, rfl, rfl⟩

end Sys2Proof.Laws.TableEntry
end

