-- ==== Sys2Proof/Laws/Step.lean ====
section
/-! SUPPORT. What an instruction and a step can do, said once. -/

namespace Sys2Proof.Machine

/-- Every way an instruction i can change the state when it answers a next state, with the instructions that can take
each way. -/
inductive Effect (i : Instr) (s : State) : State → Prop
  | fault (c : Cause) (hc : instrCause s i = some c) : Effect i s (s.enterFault c)
  | halt (hi : i = .halt) : Effect i s s.halt
  | wait (a : Operand) (d : Dest) (hi : i = .inp a) (hd : destination s i = some d) (h : s.input = []) : Effect i s s
  | advance (w : Nat) (hw : w ≤ 4) (hi : i = .noop ∨ ∃ a b, i = .jt a b ∨ i = .jf a b) : Effect i s (s.advance w)
  | jump (v : Word) (hi : ∃ a, i = .jmp a ∨ ∃ b, i = .jt a b ∨ i = .jf a b) : Effect i s (s.jump v)
  | call (w : Word) (a : Operand) (hi : i = .call a) (h : s.stackHasRoom = true) :
      Effect i s ((s.pushWord w).jump (value s a))
  | ret (t : Word) (rest : List Word) (hi : i = .ret) (h : s.stack = t :: rest) : Effect i s (s.dropTop.jump t)
  | push (a : Operand) (hi : i = .push a) (h : s.stackHasRoom = true) :
      Effect i s ((s.pushWord (value s a)).advance 2)
  | result (d : Dest) (r : Word) (w : Nat) (hw : w ≤ 4) (hd : destination s i = some d) (hi : ∀ a, i ≠ .inp a) :
      Effect i s ((s.writeDest d r).advance w)
  | pop (a : Operand) (d : Dest) (v : Word) (rest : List Word) (hi : i = .pop a) (hd : destination s i = some d)
      (h : s.stack = v :: rest) : Effect i s ((s.dropTop.writeDest d v).advance 2)
  | store (a b : Operand) (hi : i = .wmem a b) : Effect i s ((s.writeCell (value s a) (value s b)).advance 3)
  | emit (a : Operand) (hi : i = .out a) : Effect i s ((s.emit (value s a)).advance 2)
  | take (a : Operand) (d : Dest) (w : Word) (rest : List Word) (hi : i = .inp a) (hd : destination s i = some d)
      (h : s.input = w :: rest) : Effect i s ((s.dropInput.writeDest d w).advance 2)

/-- An execution-stage fault, where the destination is good, is the instruction's fault. -/
theorem instrCause_of_executionCause {s : State} {i : Instr} {c : Cause}
    (hd : destinationOperand i = none ∨ ∃ d, destination s i = some d) (hc : executionCause s i = some c) :
    instrCause s i = some c := by
  rw [instrCause, if_neg, hc]
  rintro ⟨h1, h2⟩
  rcases hd with hd | ⟨d, hd⟩
  · simp [hd] at h1
  · simp [hd] at h2

/-- An instruction with a destination: `withDest` goes on with that destination, or enters InvalidOperand. -/
theorem effect_withDest {i : Instr} {a : Operand} {s t : State} {k : Dest → Answer} (ha : destinationOperand i = some a)
    (hk : ∀ d, destination s i = some d → k d = .next t → Effect i s t)
    (h : withDest (mustBeRegister s.params.regOnlyDest i) a s k = .next t) : Effect i s t := by
  have e : destination s i = destOf (mustBeRegister s.params.regOnlyDest i) a := by simp [destination, ha]
  rcases withDest_cases (mustBeRegister s.params.regOnlyDest i) a s k with ⟨d, hd, h'⟩ | ⟨hd, h'⟩ <;> rw [h'] at h
  · exact hk d (e.trans hd) h
  · cases h
    exact .fault _ (by rw [instrCause, if_pos ⟨by simp [ha], e.trans hd⟩])

theorem effect_writeResult {i : Instr} {a : Operand} {r : Word} {w : Nat} {s t : State}
    (ha : destinationOperand i = some a) (hi : ∀ a, i ≠ .inp a) (hw : w ≤ 4)
    (h : writeResult (mustBeRegister s.params.regOnlyDest i) a r w s = .next t) : Effect i s t :=
  effect_withDest ha (fun d hd hf => by cases hf; exact .result d r w hw hd hi) h

/-- The inversion of `exec`: a next state is one of the effects. -/
theorem exec_effect {i : Instr} {s t : State} (h : exec i s = .next t) : Effect i s t := by
  cases i with
  | halt => cases h; exact .halt rfl
  | jmp a => cases h; exact .jump _ ⟨a, .inl rfl⟩
  | jt a b =>
    cases h
    cases isNonzero (value s a)
    · exact .advance 3 (by omega) (.inr ⟨a, b, .inl rfl⟩)
    · exact .jump _ ⟨a, .inr ⟨b, .inl rfl⟩⟩
  | jf a b =>
    cases h
    cases isNonzero (value s a)
    · exact .jump _ ⟨a, .inr ⟨b, .inr rfl⟩⟩
    · exact .advance 3 (by omega) (.inr ⟨a, b, .inr rfl⟩)
  | call a =>
    simp only [exec, execCall] at h
    split at h
    · cases h
      exact .fault _ (instrCause_of_executionCause (.inl rfl) (if_pos ‹_›))
    · split at h
      · cases h; exact .call _ _ rfl ‹_›
      · cases h
  | ret =>
    simp only [exec, execRet] at h
    split at h
    · cases h
      exact .fault _ (instrCause_of_executionCause (.inl rfl) (if_pos ‹_›))
    · cases h; exact .ret _ _ rfl ‹_›
  | noop => cases h; exact .advance 1 (by omega) (.inl rfl)
  | set a b => exact effect_writeResult rfl nofun (by omega) h
  | eq a b c | gt a b c | add a b c | mult a b c | and a b c | or a b c =>
    exact effect_writeResult rfl nofun (by omega) h
  | not a b => exact effect_writeResult rfl nofun (by omega) h
  | mod a b c =>
    refine effect_withDest rfl (fun d hd hk => ?_) h
    split at hk
    · cases hk
      exact .fault _ (instrCause_of_executionCause (.inr ⟨d, hd⟩) (if_pos ‹_›))
    · cases hk; exact .result d _ 4 (by omega) hd nofun
  | push a =>
    simp only [exec, execPush] at h
    split at h
    · cases h; exact .push _ rfl ‹_›
    · cases h
  | pop a =>
    refine effect_withDest rfl (fun d hd hk => ?_) h
    split at hk
    · cases hk
      exact .fault _ (instrCause_of_executionCause (.inr ⟨d, hd⟩) (if_pos ‹_›))
    · cases hk; exact .pop _ d _ _ rfl hd ‹_›
  | rmem a b =>
    refine effect_withDest rfl (fun d hd hk => ?_) h
    split at hk
    · cases hk
      exact .fault _ (instrCause_of_executionCause (.inr ⟨d, hd⟩) (if_pos ‹_›))
    · cases hk; exact .result d _ 3 (by omega) hd nofun
  | wmem a b => cases h; exact .store _ _ rfl
  | out a => cases h; exact .emit _ rfl
  | inp a =>
    refine effect_withDest rfl (fun d hd hk => ?_) h
    split at hk
    · cases hk; exact .wait _ d rfl hd ‹_›
    · cases hk; exact .take _ d _ _ rfl hd ‹_›

/-- The inversion of `step`: RUN is Running, and a fault of fetch is entered or the fetched instruction is executed. -/
theorem step_cases {s t : State} (h : step s = .next t) :
    s.run = .running ∧
      ((∃ c, fetch s = .error c ∧ t = s.enterFault c) ∨ ∃ i, fetch s = .ok i ∧ exec i s = .next t) := by
  unfold step at h
  split at h
  · cases h
  · cases h
  · rename_i hr
    refine ⟨hr, ?_⟩
    split at h
    · rename_i hf
      cases h
      exact .inl ⟨_, hf, rfl⟩
    · exact .inr ⟨_, ‹_›, h⟩

/-- What a step can do: RUN is Running, and a fault of fetch is entered or the fetched instruction has its effect. -/
theorem step_effect {s t : State} (h : step s = .next t) :
    s.run = .running ∧
      ((∃ c, fetch s = .error c ∧ t = s.enterFault c) ∨ ∃ i, fetch s = .ok i ∧ Effect i s t) := by
  obtain ⟨hr, hf | ⟨i, hf, hi⟩⟩ := step_cases h
  · exact ⟨hr, .inl hf⟩
  · exact ⟨hr, .inr ⟨i, hf, exec_effect hi⟩⟩

/-! ### Fetch -/

/-- A run of readable cells is read whole. -/
theorem readRun_eq {s : State} {ws : List Raw} {a : Nat}
    (h : ∀ k, k < ws.length → s.readCell (a + k) = ws[k]?) : readRun s a ws.length = ws := by
  induction ws generalizing a with
  | nil => rfl
  | cons w ws ih =>
    have h0 : s.readCell a = some w := by simpa using h 0 (by simp)
    have hs : readRun s (a + 1) ws.length = ws := ih fun k hk => by
      have := h (k + 1) (by simpa using hk)
      simpa [Nat.add_assoc, Nat.add_comm 1 k] using this
    simp only [List.length_cons, readRun, h0, hs]

theorem readRun_congr {s t : State} (h : ∀ a, t.readCell a = s.readCell a) (a n : Nat) :
    readRun t a n = readRun s a n := by
  induction n generalizing a with
  | zero => rfl
  | succ n ih => simp only [readRun, h, ih]

/-- Fetch reads the pc and the cells, and nothing else. -/
theorem fetch_congr {s t : State} (hp : t.pc = s.pc) (h : ∀ a, t.readCell a = s.readCell a) : fetch t = fetch s := by
  have hw : fetchWords t = fetchWords s := by simp only [fetchWords, hp, h, readRun_congr h]
  simp only [fetch, hw, State.next, hp]

/-- A step from a running state whose opcode cell can be read fetches from a pc that names a cell. -/
theorem fetch_ok_pc {s : State} {i : Instr} (h : fetch s = .ok i) : s.pc.toNat < memCells := by
  cases hr : s.readCell s.pc.toNat with
  | none =>
    simp only [fetch, fetchWords, hr, decode] at h
    cases h
  | some op => exact State.readCell_lt hr

end Sys2Proof.Machine
end

