-- ==== Sys2Proof/Tests/Slice0.lean ====
section
/-! SUPPORT. The model's own tests. Expected values come from spec/95_test_vectors.md (W, V numbers) or from the words of
the rule a test names; and, for every statement that has hypotheses, a witness that meets them. -/

namespace Sys2Proof.Tests

open Sys2Proof Sys2Proof.Machine

/-! ### States to test on -/

/-- The reset state with the words of an image in cells 0, 1, …. -/
def start (image : List Raw) : State := State.reset.withWordsAtPc image

/-- The state with a word in a register. -/
def withReg (s : State) (n : RegIdx) (v : Word) : State := s.writeReg n v

/-- The state with a stack, its top first. -/
def withStack (s : State) (st : List Word) : State := { s with stack := st }

/-- Every destination must be a register. -/
def strict : State := { State.reset with params := { regOnlyDest := ⟨true, true, true, true, true, true, true, true, true, true, true⟩ } }

/-- UNWRITTEN_READ = Zero, with no image. -/
def zeroed : State := { State.reset with params := { unwrittenRead := .zero } }

/-- A stack of depth 1 that is full. -/
def full : State := { State.reset with params := { stackDepth := some 1 }, stack := [9] }

/-- One input word is ready. -/
def oneInput : State := { State.reset with input := [65] }

/-- One field of the next state, where there is one. -/
def after {α : Type} (o : Answer) (f : State → α) : Option α :=
  match o with
  | .next t => some (f t)
  | .fault _ => none
  | .refused _ => none

/-- RUN, FAULT_KIND, FAULT_PC and pc of a state. -/
def faultOf (s : State) : RunStatus × FaultKind × Raw × Raw := (s.run, s.faultKind, s.faultPc, s.pc)

/-! ### WellFormed: the one check refuses an ill-formed term (R55) -/

theorem test_wellFormed_refuses_set_to_literal : (Instr.set (.lit 5) (.lit 3)).wellFormed = false := by decide
theorem test_wellFormed_takes_set_to_register : (Instr.set (.reg 0) (.lit 3)).wellFormed = true := by decide

/-! ### Decode: a word of every instruction, written out from R49 and R52 -/

theorem test_decode_halt : decode [0] = .ok (.halt, []) := rfl
theorem test_decode_set : decode [1, 32768, 3] = .ok (.set (.reg 0) (.lit 3), []) := rfl
theorem test_decode_push : decode [2, 32771] = .ok (.push (.reg 3), []) := rfl
theorem test_decode_pop : decode [3, 200] = .ok (.pop (.lit 200), []) := rfl
theorem test_decode_eq : decode [4, 32770, 5, 6] = .ok (.eq (.reg 2) (.lit 5) (.lit 6), []) := rfl
theorem test_decode_gt : decode [5, 32768, 32767, 0] = .ok (.gt (.reg 0) (.lit 32767) (.lit 0), []) := rfl
theorem test_decode_jmp : decode [6, 32769] = .ok (.jmp (.reg 1), []) := rfl
theorem test_decode_jt : decode [7, 1, 10] = .ok (.jt (.lit 1) (.lit 10), []) := rfl
theorem test_decode_jf : decode [8, 0, 10] = .ok (.jf (.lit 0) (.lit 10), []) := rfl
theorem test_decode_add : decode [9, 32768, 4, 5] = .ok (.add (.reg 0) (.lit 4) (.lit 5), []) := rfl
theorem test_decode_mult : decode [10, 32769, 6, 7] = .ok (.mult (.reg 1) (.lit 6) (.lit 7), []) := rfl
theorem test_decode_mod : decode [11, 32768, 10, 3] = .ok (.mod (.reg 0) (.lit 10) (.lit 3), []) := rfl
theorem test_decode_and : decode [12, 32768, 12, 10] = .ok (.and (.reg 0) (.lit 12) (.lit 10), []) := rfl
theorem test_decode_or : decode [13, 32769, 32768, 21845] = .ok (.or (.reg 1) (.reg 0) (.lit 21845), []) := rfl
theorem test_decode_not : decode [14, 32775, 0] = .ok (.not (.reg 7) (.lit 0), []) := rfl
theorem test_decode_rmem : decode [15, 32768, 100] = .ok (.rmem (.reg 0) (.lit 100), []) := rfl
theorem test_decode_wmem : decode [16, 32769, 5] = .ok (.wmem (.reg 1) (.lit 5), []) := rfl
theorem test_decode_call : decode [17, 3, 0, 18] = .ok (.call (.lit 3), [0, 18]) := rfl
theorem test_decode_ret : decode [18] = .ok (.ret, []) := rfl
theorem test_decode_out : decode [19, 32768] = .ok (.out (.reg 0), []) := rfl
theorem test_decode_in : decode [20, 32769] = .ok (.inp (.reg 1), []) := rfl
theorem test_decode_noop : decode [21] = .ok (.noop, []) := rfl
/-- W3, V1, V2: 22, 65535 and 32768 + 9 are no opcode. -/
theorem test_decode_no_opcode : decode [22] = .error .invalidOpcode ∧ decode [65535] = .error .invalidOpcode ∧
    decode [32777, 0, 0, 0] = .error .invalidOpcode := ⟨rfl, rfl, rfl⟩
/-- V4, V5: the first bad operand. -/
theorem test_decode_bad_operand : decode [9, 32776, 4, 5] = .error (.invalidOperand 1) ∧
    decode [9, 32768, 32776, 40000] = .error (.invalidOperand 2) := ⟨rfl, rfl⟩
/-- V3: an operand word is missing. -/
theorem test_decode_truncated : decode [9, 32768, 4] = .error .truncated := rfl
/-- The table's row of `add`, its operand words 0. -/
theorem test_decodeTableWord : decodeTableWord 16 9 = some (.add (.lit 0) (.lit 0) (.lit 0)) := rfl
/-- R59's own examples. -/
theorem test_listing : listInstr (.add (.reg 0) (.lit 4) (.lit 5)) = "add R0, 4, 5" ∧ listInstr (.out (.reg 0)) = "out R0" ∧
    listInstr .ret = "ret" := by decide

/-! ### Execution: one step each -/

/-- V10. -/
theorem test_halt : after (step (start [0])) (fun t => (t.run, t.pc)) = some (.halted, 0) := by decide
/-- V11. -/
theorem test_jmp : after (exec (.jmp (.reg 1)) (withReg (start []) 1 9)) (·.pc) = some 9 := by decide
/-- V12. -/
theorem test_jt : after (step (start [7, 32767, 10])) (·.pc) = some 10 ∧ after (step (start [7, 0, 10])) (·.pc) = some 3 := by
  decide
/-- V13. -/
theorem test_jf : after (step (start [8, 0, 10])) (·.pc) = some 10 ∧ after (step (start [8, 7, 10])) (·.pc) = some 3 := by
  decide
/-- V14. -/
theorem test_call : after (step (start [17, 3, 0, 18])) (fun t => (t.stack, t.pc)) = some ([2], 3) := by decide
/-- V15. -/
theorem test_call_at_32766 :
    after (exec (.call (.lit 0)) { start [] with pc := 32766 }) (fun t => (faultOf t, t.faultAddr, t.stack)) =
      some ((.faulted, .undefinedAddress, 32766, 32766), 32768, []) := by decide
/-- V16. -/
theorem test_ret : after (step (withStack (start [18]) [7])) (fun t => (t.pc, t.stack)) = some (7, []) := by decide
/-- W4. -/
theorem test_ret_underflow :
    after (step (start [18])) faultOf = some (.faulted, .stackUnderflow, 0, 0) := by decide
/-- V18. -/
theorem test_noop : after (step (start [21, 0])) (·.pc) = some 1 := by decide
/-- V20. -/
theorem test_set : after (step (withReg (start [1, 32768, 32769]) 1 77)) (·.readReg 0) = some 77 := by decide
/-- V21. -/
theorem test_set_to_literal : after (step (start [1, 5, 3])) faultOf = some (.faulted, .invalidOperand, 0, 0) := by decide
/-- V23. -/
theorem test_push : after (step (withReg (start [2, 32771]) 3 12)) (·.stack) = some [12] := by decide
/-- D14, I6. -/
theorem test_push_refused : exec (.push (.lit 1)) full = .refused .stackDepthExceeded := rfl
/-- V24. -/
theorem test_pop_to_cell :
    after (step (withStack (start [3, 200]) [9])) (fun t => (t.readCell 200, t.stack, t.pc)) = some (some 9, [], 2) := by decide
/-- V26: InvalidOperand, not StackUnderflow. -/
theorem test_pop_bad_operand : after (step (start [3, 40000])) faultOf = some (.faulted, .invalidOperand, 0, 0) := by decide
/-- V27: 32770 mod 32768 = 2. -/
theorem test_rmem : after (step (start [15, 32768, 3, 32770])) (fun t => (t.readReg 0, t.pc)) = some (2, 3) := by decide
/-- V28, both policies. -/
theorem test_rmem_unwritten :
    after (step (start [15, 32768, 500])) (fun t => (faultOf t, t.faultAddr)) =
      some ((.faulted, .undefinedAddress, 0, 0), 500) ∧
    after (exec (.rmem (.reg 0) (.lit 500)) (withReg zeroed 0 4)) (·.readReg 0) = some 0 := by decide
/-- V30: the address is R1's content; R1 is not written. -/
theorem test_wmem :
    after (step (withReg (start [16, 32769, 5]) 1 300)) (fun t => (t.readCell 300, t.readReg 1)) = some (some 5, 300) := by decide
/-- V32: an instruction that overwrites itself runs with the words it fetched. -/
theorem test_wmem_own_opcode : after (step (start [16, 0, 7, 0])) (fun t => (t.readCell 0, t.pc)) = some (some 7, 3) := by decide
/-- V33, V34. -/
theorem test_eq : after (exec (.eq (.reg 0) (.lit 5) (.lit 5)) (start [])) (·.readReg 0) = some 1 ∧
    after (exec (.eq (.reg 0) (.lit 5) (.lit 6)) (start [])) (·.readReg 0) = some 0 := by decide
/-- V38, V36. -/
theorem test_gt : after (exec (.gt (.reg 0) (.lit 32767) (.lit 0)) (start [])) (·.readReg 0) = some 1 ∧
    after (exec (.gt (.reg 0) (.lit 5) (.lit 5)) (start [])) (·.readReg 0) = some 0 := by decide
/-- V41, V65. -/
theorem test_add : after (exec (.add (.reg 0) (.lit 32767) (.lit 32767)) (start [])) (·.readReg 0) = some 32766 ∧
    after (exec (.add (.reg 0) (.reg 0) (.reg 0)) (withReg (start []) 0 16384)) (·.readReg 0) = some 0 := by decide
/-- V64. -/
theorem test_add_to_cell : after (step (start [9, 100, 4, 5])) (fun t => (t.readCell 100, t.pc)) = some (some 9, 4) := by decide
/-- V45, V48. -/
theorem test_mult : after (exec (.mult (.reg 0) (.lit 32767) (.lit 32767)) (start [])) (·.readReg 0) = some 1 ∧
    after (exec (.mult (.reg 0) (.lit 182) (.lit 182)) (start [])) (·.readReg 0) = some 356 := by decide
/-- V50, V51. -/
theorem test_mod : after (exec (.mod (.reg 0) (.lit 10) (.lit 3)) (start [])) (·.readReg 0) = some 1 ∧
    after (exec (.mod (.reg 0) (.lit 3) (.lit 10)) (start [])) (·.readReg 0) = some 3 := by decide
/-- V55, V67. -/
theorem test_mod_faults : after (step (start [11, 32768, 7, 0])) faultOf = some (.faulted, .divideByZero, 0, 0) ∧
    after (step (start [11, 40000, 1, 0])) faultOf = some (.faulted, .invalidOperand, 0, 0) := by decide
/-- V56. -/
theorem test_and : after (exec (.and (.reg 0) (.lit 12) (.lit 10)) (start [])) (·.readReg 0) = some 8 := by decide
/-- V59. -/
theorem test_or : after (exec (.or (.reg 0) (.lit 21845) (.lit 10922)) (start [])) (·.readReg 0) = some 32767 := by decide
/-- V62. -/
theorem test_not : after (exec (.not (.reg 0) (.lit 21845)) (start [])) (·.readReg 0) = some 10922 := by decide
/-- V69. -/
theorem test_out : after (step (start [19, 65])) (fun t => (t.output, t.pc)) = some ([65], 2) := by decide
/-- V71. -/
theorem test_in : after (step ((start [20, 32769]).supplyInput 65)) (fun t => (t.readReg 1, t.pc, t.input)) = some (65, 2, []) := by
  decide
/-- V72: Wait. -/
theorem test_in_waits : after (step (start [20, 32769])) id = some (start [20, 32769]) ∧
    (start [20, 32769]).stepEnd = some .wait := by decide

/-! ### Fetch, policy, launch and result -/

/-- V3. -/
theorem test_missing_operand : after (step (start [9, 32768, 4])) (fun t => (faultOf t, t.faultAddr)) =
    some ((.faulted, .undefinedAddress, 0, 0), 3) := by decide
/-- V7: a fetch at 32768. -/
theorem test_fetch_past_memory : after (step { zeroed with pc := 32768 }) (fun t => (faultOf t, t.faultAddr)) =
    some ((.faulted, .undefinedAddress, 32768, 32768), 32768) := by decide
/-- V8: under Zero an unallocated cell reads 0, which is `halt`. -/
theorem test_zero_policy_halts : after (step { zeroed with pc := 100 }) (fun t => (t.run, t.pc)) = some (.halted, 100) := by decide
/-- R32, G2: low byte first; an odd number of bytes is refused (I18). -/
theorem test_image_bytes : imageOfBytes [0x03, 0x80, 0x15, 0x00] = some [0x8003, 0x0015] ∧ imageOfBytes [1, 2, 3] = none := by
  decide
/-- R113: the host reads the kind, FAULT_PC and, for UndefinedAddress only, FAULT_ADDR. -/
theorem test_result : after (step (start [22])) State.result = some (some (.faulted ⟨.invalidOpcode, 0, none⟩)) ∧
    after (step (start [])) State.result = some (some (.faulted ⟨.undefinedAddress, 0, some 0⟩)) ∧
    (start [0]).result = none := by decide
/-- R22, R23, R100: the codes. -/
theorem test_codes : [RunStatus.running, .halted, .faulted].map RunStatus.code = [0, 1, 2] ∧
    [FaultKind.invalidOperand, .invalidOpcode, .stackUnderflow, .divideByZero, .undefinedAddress].map FaultKind.code =
      [1, 2, 3, 4, 5] := by decide
/-- R33, R36, under Zero: a cell outside the image is not allocated, though it reads 0; writing 0 to it allocates it. -/
theorem test_write_zero_allocates :
    (zeroed.readCell 100, zeroed.allocated 100) = (some 0, false) ∧
    after (exec (.wmem (.lit 100) (.lit 0)) zeroed) (fun t => (t.readCell 100, t.allocated 100, t.allocated 101)) =
      some (some 0, true, false) := by decide
/-- W11, R60: each opcode 0..21 advances the listing by its width, here with operand words that are invalid. -/
theorem test_listing_widths :
    ([0, 18, 21] : List Raw).map (fun op => (listing [op, 32776] 7).2) = [8, 8, 8] ∧
    ([2, 3, 6, 17, 19, 20] : List Raw).map (fun op => (listing [op, 32776] 7).2) = [9, 9, 9, 9, 9, 9] ∧
    ([1, 7, 8, 14, 15, 16] : List Raw).map (fun op => (listing [op, 32776, 4] 7).2) = [10, 10, 10, 10, 10, 10] ∧
    ([4, 5, 9, 10, 11, 12, 13] : List Raw).map (fun op => (listing [op, 32776, 4, 5] 7).2) = [11, 11, 11, 11, 11, 11, 11] :=
  ⟨rfl, rfl, rfl, rfl⟩

/-! ### Witnesses: states and operands that meet the hypotheses of the statements, clause by clause -/

theorem witness_DecodedWordsAreTheEncoding : decode [9, 32775, 32767, 0, 21] = .ok (.add (.reg 7) (.lit 32767) (.lit 0), [21]) := rfl

/-- Both ends of the three classes (also for ValueMode… and DestinationMode…). -/
theorem witness_OperandWordClasses :
    decodeOperand 0 = some (.lit 0) ∧ decodeOperand 32767 = some (.lit 32767) ∧ decodeOperand 32768 = some (.reg 0) ∧
    decodeOperand 32775 = some (.reg 7) ∧ decodeOperand 32776 = none ∧ decodeOperand 65535 = none := by decide

theorem witness_OpcodeDecidesWidth : decode [9, 32768, 4, 5, 0] = .ok (.add (.reg 0) (.lit 4) (.lit 5), [0]) ∧
    widthOf 9 = some 4 ∧ widthOf 21 = some 1 ∧ widthOf 22 = none := ⟨rfl, rfl, rfl, rfl⟩

theorem witness_ExactlyWordsAbove21AreNoOpcode : (22 : Raw).toNat = 22 ∧ decode [22] = .error .invalidOpcode ∧
    decode [21] = .ok (.noop, []) := ⟨rfl, rfl, rfl⟩

theorem witness_ValueModeDenotesLiteralOrRegister : (32767 : Raw).toNat ≤ 32767 ∧
    (32768 : Raw).toNat = 32768 + (0 : RegIdx).val ∧ (32775 : Raw).toNat = 32768 + (7 : RegIdx).val ∧
    32776 ≤ (32776 : Raw).toNat := by decide

theorem witness_DestinationModeNamesCellOrRegister : destOf false (.lit 32767) = some (.mem 32767) ∧
    destOf true (.lit 32767) = none ∧ destOf true (.reg 7) = some (.reg 7) ∧ (32767 : Raw).toNat ≤ 32767 ∧
    (32775 : Raw).toNat = 32768 + (7 : RegIdx).val ∧ 32776 ≤ (32776 : Raw).toNat := by decide

/-- Each clause: address 32768; the listed cell 32767; the unallocated cell 32767 under either policy. -/
theorem witness_CellReadFollowsPolicy : State.reset.readCell 32768 = none ∧
    ({ State.reset with mem := [(32767, 5)] } : State).mem.find 32767 = some 5 ∧
    ({ State.reset with mem := [(32767, 5)] } : State).allocated 32767 = true ∧
    State.reset.allocated 32767 = false ∧ State.reset.params.unwrittenRead = .fault ∧
    zeroed.allocated 32767 = false ∧ zeroed.params.unwrittenRead = .zero := by decide

theorem witness_CellWriteStoresAndAllocates : Memory.wf (start [0]).mem := by decide

/-- Two orders of the same writes, under either policy. -/
theorem witness_CanonicalMemoriesAreEqualWhenReadAlike :
    Memory.wf (Memory.write (Memory.write [] 5 1) 3 0) ∧ Memory.wf (Memory.write (Memory.write [] 3 0) 5 1) ∧
    ∀ a, (∀ u, Memory.read u (Memory.write (Memory.write [] 5 1) 3 0) a =
        Memory.read u (Memory.write (Memory.write [] 3 0) 5 1) a) ∧
      Memory.allocated (Memory.write (Memory.write [] 5 1) 3 0) a =
        Memory.allocated (Memory.write (Memory.write [] 3 0) 5 1) a := by
  refine ⟨by decide, by decide, fun a => ?_⟩
  rw [show Memory.write (Memory.write [] 5 1) 3 0 = Memory.write (Memory.write [] 3 0) 5 1 by decide]
  exact ⟨fun _ => rfl, rfl⟩

theorem witness_JtJumpsWhenNonzero : 32776 ≤ (40000 : Raw).toNat ∧ decode [7, 0, 40000] = .error (.invalidOperand 2) :=
  ⟨by decide, rfl⟩

theorem witness_JfJumpsWhenZero : 32776 ≤ (32776 : Raw).toNat ∧ decode [8, 1, 32776] = .error (.invalidOperand 2) :=
  ⟨by decide, rfl⟩

/-- Each clause: the last good address 32765; the bad one 32766; a full stack. -/
theorem witness_CallPushesReturnAddress :
    (({ State.reset with pc := 32765 } : State).pc.toNat + 2 ≤ 32767 ∧ State.reset.params.stackDepth = none) ∧
    32767 < ({ State.reset with pc := 32766 } : State).pc.toNat + 2 ∧
    (full.pc.toNat + 2 ≤ 32767 ∧ full.params.stackDepth = some 1 ∧ 1 ≤ full.stack.length) := by decide

theorem witness_RetPopsThePc : (withStack State.reset [32767]).stack = 32767 :: [] ∧ State.reset.stack = [] := by decide

theorem witness_SetCopiesIntoRegister : (Operand.reg 7 = .reg 7) ∧ (Operand.lit 0 = .lit 0) ∧
    after (exec (.set (.reg 7) (.lit 3)) State.reset) (·.readReg 7) = some 3 := by decide

theorem witness_PushPutsValueOnTop : State.reset.params.stackDepth = none ∧ full.params.stackDepth = some 1 ∧
    1 ≤ full.stack.length := by decide

theorem witness_PopMovesTopToDestination :
    (destOf State.reset.params.regOnlyDest.pop (.lit 200) = some (.mem 200) ∧ (withStack State.reset [9]).stack = 9 :: []) ∧
    State.reset.stack = [] ∧ destOf strict.params.regOnlyDest.pop (.lit 200) = none ∧
    after (exec (.push (.lit 4)) State.reset) (·.stack) = some [4] := by decide

theorem witness_RmemReadsCell :
    (destOf State.reset.params.regOnlyDest.rmem (.reg 0) = some (.reg 0) ∧ (start [15, 32768, 3, 32770]).readCell 3 = some 32770) ∧
    State.reset.readCell 500 = none ∧ destOf strict.params.regOnlyDest.rmem (.lit 3) = none := by decide

/-- A good register, a good cell and a bad destination: for EqWritesOneOrZero, GtComparesUnsigned, AddIsSumModulo32768,
MultIsProductModulo32768, ModIsRemainderOrDivideByZero, AndIsBitwise, OrIsBitwise, NotIsComplement and
InTakesOneWordOrWaits. -/
theorem witness_destinations :
    (let r := State.reset.params.regOnlyDest
     ∀ b ∈ [r.eq, r.gt, r.add, r.mult, r.mod, r.and, r.or, r.not, r.inp],
      destOf b (.reg 7) = some (.reg 7) ∧ destOf b (.lit 32767) = some (.mem 32767)) ∧
    (let r := strict.params.regOnlyDest
     ∀ b ∈ [r.eq, r.gt, r.add, r.mult, r.mod, r.and, r.or, r.not, r.inp], destOf b (.lit 32767) = none) := by decide

theorem witness_ModIsRemainderOrDivideByZero : (value State.reset (.lit 1)).toNat ≠ 0 ∧ (value State.reset (.lit 0)).toNat = 0 ∧
    destOf State.reset.params.regOnlyDest.mod (.reg 0) = some (.reg 0) := by decide

theorem witness_NotIsComplement : ∃ t, exec (.not (.reg 0) (.lit 1)) State.reset = .next t := ⟨_, rfl⟩

theorem witness_InTakesOneWordOrWaits : oneInput.input = 65 :: [] ∧ State.reset.input = [] ∧
    destOf State.reset.params.regOnlyDest.inp (.reg 1) = some (.reg 1) ∧
    destOf strict.params.regOnlyDest.inp (.lit 1) = none := by decide

theorem witness_StepExecutesTheDecodedInstruction :
    (start [9, 32768, 4, 5]).run = .running ∧ decode [9, 32768, 4, 5] = .ok (.add (.reg 0) (.lit 4) (.lit 5), []) ∧
    ∀ k, k < [9, 32768, 4, 5].length →
      (start [9, 32768, 4, 5]).readCell ((start [9, 32768, 4, 5]).pc.toNat + k) = ([9, 32768, 4, 5] : List Raw)[k]? :=
  ⟨rfl, rfl, by decide⟩

/-- Each clause: RUN not Running; an unreadable cell; the first address past memory; an unallocated cell under either
policy. -/
theorem witness_OpcodeFetchFaultsWhereNoCellReads :
    ({ State.reset with run := .halted } : State).run ≠ .running ∧
    (State.reset.run = .running ∧ State.reset.readCell State.reset.pc.toNat = none) ∧
    32768 ≤ ({ State.reset with pc := 32768 } : State).pc.toNat ∧
    (State.reset.allocated State.reset.pc.toNat = false ∧ State.reset.params.unwrittenRead = .fault) ∧
    (zeroed.run = .running ∧ zeroed.pc.toNat < 32768 ∧ zeroed.allocated zeroed.pc.toNat = false ∧
      zeroed.params.unwrittenRead = .zero) := by decide

theorem witness_NonOpcodeWordFaults : (start [22]).run = .running ∧ (start [22]).readCell (start [22]).pc.toNat = some 22 ∧
    21 < (22 : Raw).toNat := by decide

theorem witness_MissingOperandWordFaults :
    (start [9, 32768, 4]).run = .running ∧ (start [9, 32768, 4]).readCell 0 = some 9 ∧ widthOf 9 = some 4 ∧
    (∀ j ∈ [1, 2], (start [9, 32768, 4]).readCell j ≠ none) ∧ (start [9, 32768, 4]).readCell 3 = none := by decide

theorem witness_InvalidOperandWordFaults :
    (start [11, 32768, 32776, 0]).run = .running ∧ (start [11, 32768, 32776, 0]).readCell 0 = some 11 ∧
    widthOf 11 = some 4 ∧ (∀ j ∈ [1, 2, 3], (start [11, 32768, 32776, 0]).readCell j ≠ none) ∧
    (start [11, 32768, 32776, 0]).readCell 2 = some 32776 := by decide

/-- A step that ends in each run status: for the statements whose only hypothesis is that a step answers a next state
(StackChangesByOnePushOrPop, BoundaryMovesOneWordAtATime, StepsKeepLaunchParameters). -/
theorem witness_step_next :
    (∃ t, step (start [9, 100, 4, 5]) = .next t) ∧ (∃ t, step (start [0]) = .next t ∧ t.run = .halted) ∧
    (∃ t, step (start [18]) = .next t ∧ t.run = .faulted) := ⟨⟨_, rfl⟩, ⟨_, rfl, rfl⟩, ⟨_, rfl, rfl⟩⟩

theorem witness_NoStepExactlyInTerminalStates : ({ State.reset with run := .faulted } : State).run ≠ .running := by decide

/-- A fault of execution, of the decode of a destination, of dispatch and of fetch, each with its cause. -/
theorem witness_FaultsArePrecise : (∃ t, step (start [18]) = .next t ∧ t.run = .faulted) ∧
    stepCause (start [18]) = some .stackUnderflow ∧ stepCause (start [1, 5, 3]) = some .invalidOperand ∧
    stepCause (start [11, 32768, 7, 0]) = some .divideByZero ∧ stepCause (start [22]) = some .invalidOpcode ∧
    stepCause (start []) = some (.undefinedAddress 0) ∧ stepCause (start [21]) = none :=
  ⟨⟨_, rfl, rfl⟩, by decide⟩

theorem witness_ExecutionFaultsAreThoseListed :
    State.reset.run = .running ∧ ∃ t, exec .ret State.reset = .next t ∧ t.run = .faulted := ⟨rfl, _, rfl, rfl⟩

/-- At the last cell of memory, where the next pc is 32768. -/
theorem witness_SequentialInstructionsAdvanceByWidth :
    isSequential .noop = true ∧ ({ State.reset with pc := 32767 } : State).pc.toNat < 32768 ∧
    (∀ a, Instr.noop = .inp a → State.reset.input ≠ []) ∧
    ∃ t, exec .noop { State.reset with pc := 32767 } = .next t ∧ t.run = .running :=
  ⟨rfl, by decide, fun _ h => (by cases h), _, rfl, rfl⟩

/-- Each clause: the opcode words 22 and 0 stored at the next pc; an operand word of the next instruction stored. -/
theorem witness_NextFetchSeesTheStoredOpcode :
    fetch (start [16, 3, 22]) = .ok (.wmem (.lit 3) (.lit 22)) ∧ fetch (start [16, 3, 0]) = .ok (.wmem (.lit 3) (.lit 0)) ∧
    (value (start [16, 3, 22]) (.lit 3)).toNat = (start [16, 3, 22]).pc.toNat + 3 ∧
    21 < (value (start [16, 3, 22]) (.lit 22)).toNat ∧ (value (start [16, 3, 0]) (.lit 0)).toNat = 0 ∧
    after (step (start [16, 4, 77, 19, 65])) fetchWords = some [19, 77] :=
  ⟨rfl, rfl, by decide, by decide, by decide, by decide⟩

theorem witness_StepKeepsStateInvariant : StateInv (start [9, 100, 4, 5]) ∧ ∃ t, step (start [9, 100, 4, 5]) = .next t :=
  ⟨⟨by decide, by decide, fun d h => by cases h⟩, _, rfl⟩

theorem witness_LaunchHasStateInvariant : ∃ s, State.boot {} [9, 100, 4, 5] = some s := ⟨_, rfl⟩

/-- Each clause: a cell allocated before; one that is not before and is after; the cell stored to. -/
theorem witness_AllocationIsNeverRemoved :
    (start [16, 3, 0]).allocated 2 = true ∧ (start [16, 3, 0]).allocated 3 = false ∧
    stepStoreAddress (start [16, 3, 0]) = some 3 ∧ (start [16, 3, 0]).waiting = false ∧
    ∃ t, step (start [16, 3, 0]) = .next t ∧ t.run = .running ∧ t.allocated 3 = true :=
  ⟨by decide, by decide, by decide, by decide, _, rfl, rfl, by decide⟩

/-- Each clause: a step that stores to a cell, and other addresses; a step that stores to none; a step that faults; a
Wait whose destination is a cell. -/
theorem witness_StepWritesAtMostOneCell :
    stepStoreAddress (start [9, 100, 4, 5]) = some 100 ∧ (101 : Nat) ≠ (100 : Word).toNat ∧
    stepStoreAddress (start [1, 32768, 3]) = none ∧ stepStoreAddress (start [11, 100, 7, 0]) = some 100 ∧
    (∃ t, step (start [9, 100, 4, 5]) = .next t ∧ t.readCell 100 = some 9) ∧
    (∃ t, step (start [11, 100, 7, 0]) = .next t ∧ t.run ≠ .running) ∧
    (start [20, 100]).waiting = true ∧ ∃ t, step (start [20, 100]) = .next t :=
  ⟨by decide, by decide, by decide, by decide, ⟨_, rfl, by decide⟩, ⟨_, rfl, by decide⟩, by decide, _, rfl⟩

theorem witness_StepsStoreWordsOnly :
    ∃ t, step (start [9, 32768, 4, 5]) = .next t ∧ t.readCell 1 = some 32768 ∧ 32768 ≤ (32768 : Raw).toNat :=
  ⟨_, rfl, by decide, by decide⟩

theorem witness_RegistersChangeOnlyAsDestination :
    ∃ t, step (start [1, 32768, 3]) = .next t ∧ t.readReg 0 ≠ (start [1, 32768, 3]).readReg 0 := ⟨_, rfl, by decide⟩

theorem witness_RunStatusAndRecordAreWrittenOnlyAtTheEnd :
    (∃ t, step (start [0]) = .next t ∧ t.run = .halted) ∧ ∃ t, step (start [21]) = .next t ∧ t.run ≠ .faulted :=
  ⟨⟨_, rfl, rfl⟩, _, rfl, by decide⟩

theorem witness_StepsDoNotReadTheFaultRecord :
    SameForProgram (start [21]) { start [21] with faultPc := 9, faultKind := .divideByZero, output := [1] } ∧
    ∃ t, step (start [21]) = .next t := ⟨⟨rfl, rfl, rfl, rfl, rfl, rfl, rfl⟩, _, rfl⟩

/-- A state for each of the four ways. -/
theorem witness_RunningStepEndsInOneOfFourWays :
    (start [21]).run = .running ∧ (start [21]).params.stackDepth = none ∧ (start [20, 0]).waiting = true ∧
    (∃ t, (start [21]).stepEnd = some (.continued t)) ∧ (∃ t, (start [0]).stepEnd = some (.halted t)) ∧
    ∃ t, (start [18]).stepEnd = some (.faulted t) := ⟨rfl, rfl, rfl, ⟨_, rfl⟩, ⟨_, rfl⟩, _, rfl⟩

/-- Each clause: an image of one word, read at 0 and at 1; an image one word too large. -/
theorem witness_LaunchLoadsTheImage : ([7] : List Raw).length ≤ 32768 ∧ 0 < ([7] : List Raw).length ∧
    (([7] : List Raw).length ≤ 1 ∧ 1 < 32768) ∧ 32768 < (List.replicate 32769 (0 : Raw)).length :=
  ⟨by decide, by decide, by decide, by rw [List.length_replicate]; decide⟩

theorem witness_ListingAdvancesByWidth : widthOf 9 = some 4 ∧ decode [9, 32776, 4, 5] = .error (.invalidOperand 1) := ⟨rfl, rfl⟩

theorem witness_ImageBytesAreLittleEndian : ([1, 2, 3] : List (BitVec 8)).length % 2 = 1 := by decide

end Sys2Proof.Tests
end

section
/-! The four ends of a step (00_scope R11): a running core with room on its stack always answers a next state, a Wait
answers the state itself, and a step that ends in Faulted is the entry of the state's cause. -/

namespace Sys2Proof.Machine

/-! ### A next state is always answered -/

/-- D14: the default stack is unbounded, so a push is never refused. -/
theorem State.stackHasRoom_of_unbounded {s : State} (h : s.params.stackDepth = none) : s.stackHasRoom = true := by
  simp [State.stackHasRoom, h]

theorem withDest_answers_next {regOnly : Bool} {a : Operand} {s : State} {k : Dest → Answer}
    (hk : ∀ d, ∃ t, k d = .next t) : ∃ t, withDest regOnly a s k = .next t := by
  rcases withDest_cases regOnly a s k with ⟨d, -, h⟩ | ⟨-, h⟩ <;> rw [h]
  · exact hk d
  · exact ⟨_, rfl⟩

theorem writeResult_answers_next (regOnly : Bool) (a : Operand) (r : Word) (width : Nat) (s : State) :
    ∃ t, writeResult regOnly a r width s = .next t :=
  withDest_answers_next fun _ => ⟨_, rfl⟩

/-- The one refusal is that of a push on a full stack (R19, D14): with room on the stack every instruction answers a
next state. -/
theorem exec_answers_next {s : State} (hroom : s.stackHasRoom = true) (i : Instr) : ∃ t, exec i s = .next t := by
  cases i with
  | halt | jmp _ | jt _ _ | jf _ _ | noop | wmem _ _ | out _ => exact ⟨_, rfl⟩
  | set _ _ | eq _ _ _ | gt _ _ _ | add _ _ _ | mult _ _ _ | and _ _ _ | or _ _ _ | not _ _ =>
    exact writeResult_answers_next _ _ _ _ s
  | push a => exact ⟨_, if_pos hroom⟩
  | call a =>
    simp only [exec, execCall, hroom]
    split <;> exact ⟨_, rfl⟩
  | ret =>
    simp only [exec, execRet]
    split <;> exact ⟨_, rfl⟩
  | pop _ | mod _ _ _ | rmem _ _ | inp _ =>
    refine withDest_answers_next fun d => ?_
    split <;> exact ⟨_, rfl⟩

/-- The step of a running state, where fetch and decode give no instruction. -/
theorem step_of_fetch_error {s : State} {c : Cause} (hr : s.run = .running) (hf : fetch s = .error c) :
    step s = .next (s.enterFault c) := by simp [step, hr, hf, raise]

/-- The step of a running state, where fetch and decode give an instruction. -/
theorem step_of_fetch_ok {s : State} {i : Instr} (hr : s.run = .running) (hf : fetch s = .ok i) :
    step s = exec i s := by simp [step, hr, hf]

theorem step_answers_next {s : State} (hr : s.run = .running) (hroom : s.stackHasRoom = true) :
    ∃ t, step s = .next t := by
  cases hf : fetch s with
  | error c => exact ⟨_, step_of_fetch_error hr hf⟩
  | ok i => rw [step_of_fetch_ok hr hf]; exact exec_answers_next hroom i

/-! ### A step that ends in Faulted enters the state's cause -/

/-- Of the effects of an instruction only the entry of its fault makes RUN Faulted. -/
theorem Effect.eq_enterFault {i : Instr} {s t : State} (h : Effect i s t) (hs : s.run = .running)
    (ht : t.run = .faulted) : ∃ c, instrCause s i = some c ∧ t = s.enterFault c := by
  cases h with
  | fault c hc => exact ⟨c, hc, rfl⟩
  | halt => cases ht
  | wait | advance | jump | call | ret | push | result | pop | store | emit | take => simp [hs] at ht

/-- R101 with the order of R103: a step that ends in Faulted enters the fault that is the cause of its state. -/
theorem step_eq_enterFault {s t : State} (h : step s = .next t) (ht : t.run = .faulted) :
    ∃ c, stepCause s = some c ∧ t = s.enterFault c := by
  obtain ⟨hr, ⟨c, hf, rfl⟩ | ⟨i, hf, he⟩⟩ := step_effect h
  · exact ⟨c, by simp [stepCause, hf], rfl⟩
  · obtain ⟨c, hc, rfl⟩ := he.eq_enterFault hr ht
    exact ⟨c, by simp [stepCause, hf, hc], rfl⟩

/-! ### Wait -/

/-- R97: the core waits exactly at an `in` with a good destination and no input word ready. -/
theorem State.waiting_iff {s : State} :
    s.waiting = true ↔ s.run = .running ∧
      ∃ a d, fetch s = .ok (.inp a) ∧ destOf s.params.regOnlyDest.inp a = some d ∧ s.input = [] := by
  unfold State.waiting
  split
  · next a hr hf => simp [hr, hf, Option.isSome_iff_exists]
  · next hne =>
    refine iff_of_false (by simp) ?_
    rintro ⟨hr, a, d, hf, -⟩
    exact hne a hr hf

theorem execIn_of_no_input {s : State} {a : Operand} {d : Dest} (hd : destOf s.params.regOnlyDest.inp a = some d)
    (hi : s.input = []) : execIn a s = .next s := by
  simp [execIn, withDest_some hd, hi]

/-- R11: a Wait leaves the state as it is. -/
theorem step_of_waiting {s : State} (h : s.waiting = true) : step s = .next s := by
  obtain ⟨hr, a, d, hf, hd, hi⟩ := State.waiting_iff.1 h
  rw [step_of_fetch_ok hr hf]
  exact execIn_of_no_input hd hi

/-! ### How a step ends -/

theorem State.stepEnd_of_waiting {s : State} (h : s.waiting = true) : s.stepEnd = some .wait := by
  simp [State.stepEnd, h]

section
variable {s t : State} (hw : s.waiting = false) (h : step s = .next t)
include hw h

theorem State.stepEnd_of_running (ht : t.run = .running) : s.stepEnd = some (.continued t) := by
  simp [State.stepEnd, hw, h, ht]

theorem State.stepEnd_of_halted (ht : t.run = .halted) : s.stepEnd = some (.halted t) := by
  simp [State.stepEnd, hw, h, ht]

theorem State.stepEnd_of_faulted (ht : t.run = .faulted) : s.stepEnd = some (.faulted t) := by
  simp [State.stepEnd, hw, h, ht]

end

/-- Settles O56: a Wait first; otherwise an unbounded stack gives a next state, and its RUN says which of the other
three ends it is. -/
theorem runningStepEndsInOneOfFourWays : Obligations.RunningStepEndsInOneOfFourWays := by
  intro s hr hdepth
  cases hw : s.waiting with
  | true =>
    obtain ⟨-, a, d, hf, -, hi⟩ := State.waiting_iff.1 hw
    exact ⟨_, State.stepEnd_of_waiting hw, step_of_waiting hw, hi, a, hf⟩
  | false =>
    obtain ⟨t, ht⟩ := step_answers_next hr (State.stackHasRoom_of_unbounded hdepth)
    cases hrun : t.run with
    | running => exact ⟨_, State.stepEnd_of_running hw ht hrun, ht, hrun⟩
    | halted => exact ⟨_, State.stepEnd_of_halted hw ht hrun, ht, hrun⟩
    | faulted =>
      obtain ⟨c, hc, rfl⟩ := step_eq_enterFault ht hrun
      exact ⟨_, State.stepEnd_of_faulted hw ht hrun, ht, c, hc, faultedWith_enterFault s c⟩

end Sys2Proof.Machine
end

section
/-! Dispatch (40_sequencer_decode R62): the opcode words with no table entry, from the table through the decoder to the
step. Operand cells do not matter there, because the decoder refuses the opcode word alone. -/

namespace Sys2Proof

/-- R62: the dispatch table has an entry for exactly the opcode words 0..21. -/
theorem descriptor_isSome_iff (op : Raw) : (descriptor op).isSome = true ↔ op.toNat ≤ 21 := by
  have hlen : opcodeTable.length = 22 := rfl
  rw [descriptor, isSome_getElem?, hlen, Nat.lt_succ_iff]

/-- R55: a number above 21 selects no format, whatever words follow. -/
theorem decodeBody_of_21_lt {op : Nat} (h : 21 < op) (ws : List Raw) : decodeBody op ws = .error .invalidOpcode := by
  obtain ⟨n, rfl⟩ := Nat.exists_eq_add_of_le' (Nat.succ_le_of_lt h)
  rfl

end Sys2Proof

namespace Sys2Proof.Machine

/-- R61: where the cell at pc can be read, its word is the first of the words fetched. -/
theorem fetchWords_of_readCell {s : State} {op : Raw} (h : s.readCell s.pc.toNat = some op) :
    fetchWords s = op :: readRun s (s.pc.toNat + 1) ((widthOf op).getD 1 - 1) := by
  simp only [fetchWords, h]

/-- R62: the check of the opcode word comes before the operand words. -/
theorem fetch_of_21_lt {s : State} {op : Raw} (h : s.readCell s.pc.toNat = some op) (hop : 21 < op.toNat) :
    fetch s = .error .invalidOpcode := by
  simp only [fetch, fetchWords_of_readCell h, decode, decodeBody_of_21_lt hop]

/-- Settles O37: a word above 21 has no table entry and makes fetch fail, and the step enters that fault. -/
theorem nonOpcodeWordFaults : Obligations.NonOpcodeWordFaults := by
  intro op
  refine ⟨descriptor_isSome_iff op, fun s hr hop h21 => ?_⟩
  exact ⟨_, step_of_fetch_error hr (fetch_of_21_lt hop h21), faultedWith_enterFault s _⟩

end Sys2Proof.Machine
end

section
/-! Control transfer (41_control R77, R81, R82): what a jump, an advance and a pop into the pc change, as frames over the
whole state, and the meanings of `jmp`, `ret` and `noop` read off them. -/

namespace Sys2Proof.Machine

/-! ### Frames of the moves of the pc -/

theorem onlyPc_jump (s : State) (target : Word) : OnlyPc (rawOfWord target) s (s.jump target) := by
  simp [OnlyPc, SameRegs, SameCells, SameBoundary, SameStatus, SameRecord]

theorem onlyPc_advance (s : State) (width : Nat) : OnlyPc (s.next width) s (s.advance width) := by
  simp [OnlyPc, SameRegs, SameCells, SameBoundary, SameStatus, SameRecord]

/-- R81: the target is any word, whether or not it is the one popped. -/
theorem onlyPcAndStack_dropTop_jump (s : State) (target : Word) :
    OnlyPcAndStack (rawOfWord target) s.stack.tail s (s.dropTop.jump target) := by
  simp [OnlyPcAndStack, SameRegs, SameCells, SameBoundary, SameStatus, SameRecord]

/-! ### The two cases of `ret` -/

theorem execRet_of_stack_cons {s : State} {top : Word} {rest : List Word} (h : s.stack = top :: rest) :
    execRet s = .next (s.dropTop.jump top) := by simp only [execRet, h]

theorem execRet_of_stack_nil {s : State} (h : s.stack = []) : execRet s = .next (s.enterFault .stackUnderflow) := by
  simp only [execRet, h, raise]

/-! ### The statements -/

/-- Settles O18: the two cases of the stack, each with the frame of what `ret` does there. -/
theorem retPopsThePc : Obligations.RetPopsThePc := by
  intro s
  refine ⟨rfl, fun top rest hstack => ⟨_, execRet_of_stack_cons hstack, ?_⟩,
    fun hstack => ⟨_, execRet_of_stack_nil hstack, faultedWith_enterFault s _⟩⟩
  have hframe := onlyPcAndStack_dropTop_jump s top
  rwa [hstack, List.tail_cons] at hframe

/-- Settles O14: `jmp` is the jump to its operand's value. -/
theorem jmpSetsPcToTarget : Obligations.JmpSetsPcToTarget :=
  fun a s => ⟨rfl, _, rfl, onlyPc_jump s (value s a)⟩

/-- Settles O19: `noop` is the advance by its width, 1. -/
theorem noopAdvancesPcOnly : Obligations.NoopAdvancesPcOnly :=
  fun s => ⟨rfl, _, rfl, onlyPc_advance s 1⟩

end Sys2Proof.Machine
end

section
/-! Data movement (42_data_stack R83): `set` only computes a word, and its destination must be a register whatever the
launch parameters say (R67). -/

namespace Sys2Proof.Machine

/-- R83: the word `set` computes is the value of its operand b. -/
theorem computesWord_set (a b : Operand) (s : State) : ComputesWord (.set a b) true a (value s b).toNat 3 s :=
  computesWord_of_writeResult rfl

/-- Settles O20: where it must be a register, a destination is good when a register and bad when a literal. -/
theorem setCopiesIntoRegister : Obligations.SetCopiesIntoRegister := by
  intro a b s
  obtain ⟨hgood, hbad⟩ := computesWord_set a b s
  refine ⟨rfl, ?_, ?_⟩
  · rintro n rfl
    exact hgood _ (destOf_reg true n)
  · rintro v rfl
    exact hbad (destOf_lit true v)

end Sys2Proof.Machine
end

section
/-! Output (44_io R96): `out` adds one event after the earlier ones, and moves the pc. -/

namespace Sys2Proof.Machine

/-- Settles O33: `out` is the emission of its operand's value, then the advance by its width. -/
theorem outEmitsOneWord : Obligations.OutEmitsOneWord := by
  intro a s
  refine ⟨rfl, _, rfl, ?_⟩
  simp [State.next, SameRegs, SameCells, SameStatus, SameRecord]

end Sys2Proof.Machine
end

section
/-! What a program can observe (10_state section 6, R24; 44_io R96, R99): no operation of the core reads the fault
record, the output events or the model's counter. Each operation keeps two states that agree on all the rest in
agreement, so the instructions and the step, which are made of these operations, do so too. -/

namespace Sys2Proof.Machine

namespace SameForProgram

variable {s s' : State} (h : SameForProgram s s')
include h

/-! ### What two agreeing states read -/

theorem pc_eq : s'.pc = s.pc := by obtain ⟨-, hpc, -⟩ := h; exact hpc

theorem stack_eq : s'.stack = s.stack := by obtain ⟨-, -, hstack, -⟩ := h; exact hstack

theorem run_eq : s'.run = s.run := by obtain ⟨-, -, -, -, hrun, -⟩ := h; exact hrun

theorem input_eq : s'.input = s.input := by obtain ⟨-, -, -, -, -, hinput, -⟩ := h; exact hinput

theorem params_eq : s'.params = s.params := by obtain ⟨-, -, -, -, -, -, hparams⟩ := h; exact hparams

theorem next_eq (width : Nat) : s'.next width = s.next width := by simp only [State.next, h.pc_eq]

theorem stackHasRoom_eq : s'.stackHasRoom = s.stackHasRoom := by
  simp only [State.stackHasRoom, h.stack_eq, h.params_eq]

theorem value_eq (a : Operand) : value s' a = value s a := by
  obtain ⟨hregs, -⟩ := h
  cases a with
  | lit v => rfl
  | reg n => simp only [value, State.readReg, hregs]

theorem readCell_eq (a : Nat) : s'.readCell a = s.readCell a := by
  obtain ⟨-, -, -, hmem, -, -, hparams⟩ := h
  exact State.readCell_congr hmem hparams a

theorem fetch_eq : fetch s' = fetch s := fetch_congr h.pc_eq h.readCell_eq

/-! ### The operations keep the agreement -/

theorem writeDest (d : Dest) (v : Word) : SameForProgram (s.writeDest d v) (s'.writeDest d v) := by
  cases d with
  | reg n => simp_all [SameForProgram, State.writeDest]
  | mem a => simp_all [SameForProgram, State.writeDest]

theorem writeCell (a v : Word) : SameForProgram (s.writeCell a v) (s'.writeCell a v) := h.writeDest (.mem a) v

theorem advance (width : Nat) : SameForProgram (s.advance width) (s'.advance width) := by
  simp_all [SameForProgram, State.next]

theorem jump (target : Word) : SameForProgram (s.jump target) (s'.jump target) := by simp_all [SameForProgram]

theorem pushWord (v : Word) : SameForProgram (s.pushWord v) (s'.pushWord v) := by simp_all [SameForProgram]

theorem dropTop : SameForProgram s.dropTop s'.dropTop := by simp_all [SameForProgram]

/-- R96: the two words may differ, for no instruction reads an output event back. -/
theorem emit (w w' : Word) : SameForProgram (s.emit w) (s'.emit w') := by simp_all [SameForProgram]

theorem dropInput : SameForProgram s.dropInput s'.dropInput := by simp_all [SameForProgram]

theorem halt : SameForProgram s.halt s'.halt := by simp_all [SameForProgram]

/-- R101: what the entry of a fault writes beside RUN is the fault record and the counter. -/
theorem enterFault (c : Cause) : SameForProgram (s.enterFault c) (s'.enterFault c) := by simp_all [SameForProgram]

end SameForProgram

/-! ### Answers that agree -/

/-- Where the first answer is a next state, so is the second, and the two next states agree. -/
def NextAgrees (o o' : Answer) : Prop := ∀ t, o = .next t → ∃ t', o' = .next t' ∧ SameForProgram t t'

theorem nextAgrees_next {t t' : State} (h : SameForProgram t t') : NextAgrees (.next t) (.next t') := by
  rintro _ ⟨rfl⟩
  exact ⟨t', rfl, h⟩

theorem nextAgrees_refused (r : Refusal) (o : Answer) : NextAgrees (.refused r) o := by
  intro t ht
  cases ht

section
variable {s s' : State} (h : SameForProgram s s')
include h

theorem nextAgrees_raise (c : Cause) : NextAgrees (raise c s) (raise c s') := nextAgrees_next (h.enterFault c)

theorem nextAgrees_finish (d : Dest) (r : Word) (width : Nat) : NextAgrees (finish s d r width) (finish s' d r width) :=
  nextAgrees_next ((h.writeDest d r).advance width)

theorem nextAgrees_withDest {regOnly : Bool} {a : Operand} {k k' : Dest → Answer}
    (hk : ∀ d, NextAgrees (k d) (k' d)) :
    NextAgrees (withDest regOnly a s k) (withDest regOnly a s' k') := by
  cases hd : destOf regOnly a with
  | none => rw [withDest_none hd, withDest_none hd]; exact nextAgrees_raise h _
  | some d => rw [withDest_some hd, withDest_some hd]; exact hk d

theorem nextAgrees_writeResult (regOnly : Bool) (a : Operand) (r : Word) (width : Nat) :
    NextAgrees (writeResult regOnly a r width s) (writeResult regOnly a r width s') :=
  nextAgrees_withDest h fun d => nextAgrees_finish h d r width

/-- An instruction tests and computes only with what agreeing states have in common, so it takes the same branch in
both and ends it with the same operations. -/
theorem nextAgrees_exec (i : Instr) : NextAgrees (exec i s) (exec i s') := by
  cases i with
  | halt => exact nextAgrees_next h.halt
  | noop => exact nextAgrees_next (h.advance 1)
  | out a => exact nextAgrees_next ((h.emit _ _).advance 2)
  | jmp a =>
    simp only [exec, execJmp, h.value_eq]
    exact nextAgrees_next (h.jump _)
  | wmem a b =>
    simp only [exec, execWmem, h.value_eq]
    exact nextAgrees_next ((h.writeCell _ _).advance 3)
  | jt a b =>
    simp only [exec, execJt, h.value_eq]
    split
    · exact nextAgrees_next (h.jump _)
    · exact nextAgrees_next (h.advance 3)
  | jf a b =>
    simp only [exec, execJf, h.value_eq]
    split
    · exact nextAgrees_next (h.advance 3)
    · exact nextAgrees_next (h.jump _)
  | call a =>
    simp only [exec, execCall, h.pc_eq, h.next_eq, h.stackHasRoom_eq, h.value_eq]
    split
    · exact nextAgrees_raise h _
    · split
      · exact nextAgrees_next ((h.pushWord _).jump _)
      · exact nextAgrees_refused _ _
  | push a =>
    simp only [exec, execPush, h.stackHasRoom_eq, h.value_eq]
    split
    · exact nextAgrees_next ((h.pushWord _).advance 2)
    · exact nextAgrees_refused _ _
  | ret =>
    simp only [exec, execRet, h.stack_eq]
    split
    · exact nextAgrees_raise h _
    · exact nextAgrees_next (h.dropTop.jump _)
  | set a b | eq a b c | gt a b c | add a b c | mult a b c | and a b c | or a b c | not a b =>
    simp only [exec, execSet, execEq, execGt, execAdd, execMult, execAnd, execOr, execNot, h.params_eq, h.value_eq]
    exact nextAgrees_writeResult h _ _ _ _
  | mod a b c =>
    simp only [exec, execMod, h.params_eq, h.value_eq]
    refine nextAgrees_withDest h fun d => ?_
    split
    · exact nextAgrees_raise h _
    · exact nextAgrees_finish h _ _ _
  | pop a =>
    simp only [exec, execPop, h.params_eq, h.stack_eq]
    refine nextAgrees_withDest h fun d => ?_
    split
    · exact nextAgrees_raise h _
    · exact nextAgrees_finish h.dropTop _ _ _
  | rmem a b =>
    simp only [exec, execRmem, h.params_eq, h.value_eq, h.readCell_eq]
    refine nextAgrees_withDest h fun d => ?_
    split
    · exact nextAgrees_raise h _
    · exact nextAgrees_finish h _ _ _
  | inp a =>
    simp only [exec, execIn, h.params_eq, h.input_eq]
    refine nextAgrees_withDest h fun d => ?_
    split
    · exact nextAgrees_next h
    · exact nextAgrees_finish h.dropInput _ _ _

end

/-- Settles O55: agreeing states have the same RUN and fetch the same, so they enter the same fault or execute the same
instruction. -/
theorem stepsDoNotReadTheFaultRecord : Obligations.StepsDoNotReadTheFaultRecord := by
  intro s s' t h hstep
  obtain ⟨hr, ⟨c, hf, rfl⟩ | ⟨i, hf, hexec⟩⟩ := step_cases hstep
  · exact ⟨_, step_of_fetch_error (h.run_eq.trans hr) (h.fetch_eq.trans hf), h.enterFault c⟩
  · rw [step_of_fetch_ok (h.run_eq.trans hr) (h.fetch_eq.trans hf)]
    exact nextAgrees_exec h i t hexec

end Sys2Proof.Machine
end

section
/-! The decoder by its formats (30_encoding R47, R52): each opcode 0..21 has a width, and the words after it are decoded
by the format of that width alone. What the formats answer is said once; the statements about the decoder, and the faults of
fetch, are read off. -/

namespace Sys2Proof

/-! ### Formats -/

/-- R47: how a decoder of the words after an opcode word treats them, by the width in words. The instructions it answers
have that opcode, and as operands what the words decode to. -/
inductive HasFormat (op : Nat) (body : List Raw → Decoded) : Nat → Prop
  | w1 (i : Instr) (hi : i.opcode = op ∧ i.operands = []) (h : ∀ ws, body ws = .ok (i, ws)) : HasFormat op body 1
  | w2 (f : Operand → Instr) (hf : ∀ a, (f a).opcode = op ∧ (f a).operands = [a])
      (h : ∀ ws, body ws = decodeW2 f ws) : HasFormat op body 2
  | w3 (f : Operand → Operand → Instr) (hf : ∀ a b, (f a b).opcode = op ∧ (f a b).operands = [a, b])
      (h : ∀ ws, body ws = decodeW3 f ws) : HasFormat op body 3
  | w4 (f : Operand → Operand → Operand → Instr)
      (hf : ∀ a b c, (f a b c).opcode = op ∧ (f a b c).operands = [a, b, c])
      (h : ∀ ws, body ws = decodeW4 f ws) : HasFormat op body 4

/-- R52, R53: the table's width of an opcode is that of the format the decoder uses for it. -/
theorem decodeBody_hasFormat : ∀ {op : Nat}, op ≤ 21 →
    ∃ w, opcodeTable[op]?.map Descriptor.width = some w ∧ HasFormat op (decodeBody op) w
  | 0, _ | 18, _ | 21, _ => ⟨1, rfl, .w1 _ ⟨rfl, rfl⟩ fun _ => rfl⟩
  | 2, _ | 3, _ | 6, _ | 17, _ | 19, _ | 20, _ => ⟨2, rfl, .w2 _ (fun _ => ⟨rfl, rfl⟩) fun _ => rfl⟩
  | 1, _ | 7, _ | 8, _ | 14, _ | 15, _ | 16, _ => ⟨3, rfl, .w3 _ (fun _ _ => ⟨rfl, rfl⟩) fun _ => rfl⟩
  | 4, _ | 5, _ | 9, _ | 10, _ | 11, _ | 12, _ | 13, _ => ⟨4, rfl, .w4 _ (fun _ _ _ => ⟨rfl, rfl⟩) fun _ => rfl⟩
  | n + 22, h => absurd h (by omega)

section
variable {op w : Nat} {body : List Raw → Decoded} (hb : HasFormat op body w)
include hb

/-- The formats answer an instruction only on its own operand words. -/
theorem HasFormat.words_of_ok {ws rest : List Raw} {i : Instr} (h : body ws = .ok (i, rest)) :
    i.opcode = op ∧ ws = i.operands.map encodeOperand ++ rest := by
  cases hb with
  | w1 j hj hbody =>
    rw [hbody] at h
    cases h
    simp [hj]
  | w2 f hf hbody =>
    obtain ⟨a, rfl, rfl⟩ := decodeW2_ok (hbody ws ▸ h)
    simp [hf]
  | w3 f hf hbody =>
    obtain ⟨a, b, rfl, rfl⟩ := decodeW3_ok (hbody ws ▸ h)
    simp [hf]
  | w4 f hf hbody =>
    obtain ⟨a, b, c, rfl, rfl⟩ := decodeW4_ok (hbody ws ▸ h)
    simp [hf]

/-- R63: an operand word is missing, whatever the words before it are. -/
theorem HasFormat.truncated {ws : List Raw} (h : ws.length + 1 < w) : body ws = .error .truncated := by
  cases hb with
  | w1 j hj hbody => omega
  | w2 f hf hbody =>
    rw [hbody]
    match ws, h with
    | [], _ => rfl
  | w3 f hf hbody =>
    rw [hbody]
    match ws, h with
    | [], _ | [_], _ => rfl
  | w4 f hf hbody =>
    rw [hbody]
    match ws, h with
    | [], _ | [_], _ | [_, _], _ => rfl

/-- R55, R68: all operand words are there and one of them is no operand. -/
theorem HasFormat.invalidOperand {ws : List Raw} {v : Raw} (h : ws.length + 1 = w) (hv : v ∈ ws)
    (hbad : decodeOperand v = none) : ∃ k, body ws = .error (.invalidOperand k) := by
  cases hb with
  | w1 j hj hbody => simp_all
  | w2 f hf hbody =>
    rw [hbody]
    fun_cases decodeW2 with
    | case1 => exact ⟨1, rfl⟩
    | case2 => simp_all
    | case3 _ hne =>
      obtain ⟨a, rfl⟩ := List.length_eq_one_iff.1 (Nat.succ.inj h)
      exact absurd rfl (hne a [])
  | w3 f hf hbody =>
    rw [hbody]
    fun_cases decodeW3 with
    | case1 => exact ⟨1, rfl⟩
    | case2 => exact ⟨2, rfl⟩
    | case3 a b rest x hx y hy =>
      obtain rfl : rest = [] := by simpa using h
      rcases List.mem_pair.1 hv with rfl | rfl <;> simp_all
    | case4 _ hne =>
      obtain ⟨a, b, rfl⟩ := List.length_eq_two.1 (Nat.succ.inj h)
      exact absurd rfl (hne a b [])
  | w4 f hf hbody =>
    rw [hbody]
    fun_cases decodeW4 with
    | case1 => exact ⟨1, rfl⟩
    | case2 => exact ⟨2, rfl⟩
    | case3 => exact ⟨3, rfl⟩
    | case4 a b c rest x hx y hy z hz =>
      obtain rfl : rest = [] := by simpa using h
      have hv : v = a ∨ v = b ∨ v = c := by simpa using hv
      rcases hv with rfl | rfl | rfl <;> simp_all
    | case5 _ hne =>
      obtain ⟨a, b, c, rfl⟩ := List.length_eq_three.1 (Nat.succ.inj h)
      exact absurd rfl (hne a b c [])

/-- R55: only the opcode word is refused as no opcode. -/
theorem HasFormat.ne_invalidOpcode (ws : List Raw) : body ws ≠ .error .invalidOpcode := by
  cases hb with
  | w1 j hj hbody => simp [hbody]
  | w2 f hf hbody =>
    rw [hbody]
    fun_cases decodeW2 <;> simp
  | w3 f hf hbody =>
    rw [hbody]
    fun_cases decodeW3 <;> simp
  | w4 f hf hbody =>
    rw [hbody]
    fun_cases decodeW4 <;> simp

end

theorem hasFormat_of_widthOf {op : Raw} {w : Nat} (h : widthOf op = some w) :
    HasFormat op.toNat (decodeBody op.toNat) w := by
  have hop : op.toNat ≤ 21 := by
    refine (descriptor_isSome_iff op).1 ?_
    cases hd : descriptor op with
    | none => simp [widthOf, hd] at h
    | some d => rfl
  obtain ⟨w', hw', hb⟩ := decodeBody_hasFormat hop
  obtain rfl : w' = w := Option.some.inj (hw'.symm.trans h)
  exact hb

/-! ### Round trips -/

/-- Settles O1: the opcode word selects the instruction's own format, which decodes its own operand words. -/
theorem decodeOfEncodeIsTheInstruction : Obligations.DecodeOfEncodeIsTheInstruction := by
  intro i rest
  cases i with
  | halt | ret | noop => rfl
  | push a | pop a | jmp a | call a | out a | inp a => exact decodeW2_encode _ a rest
  | set a b | jt a b | jf a b | not a b | rmem a b | wmem a b => exact decodeW3_encode _ a b rest
  | eq a b c | gt a b c | add a b c | mult a b c | mod a b c | and a b c | or a b c =>
    exact decodeW4_encode _ a b c rest

/-- Settles O2: an opcode word above 21 decodes to nothing; another one has a format, which answers an instruction only
on its own words. -/
theorem decodedWordsAreTheEncoding : Obligations.DecodedWordsAreTheEncoding := by
  intro ws rest i h
  cases ws with
  | nil => cases h
  | cons op ws =>
    rcases le_or_gt op.toNat 21 with hop | hop
    · obtain ⟨w, -, hb⟩ := decodeBody_hasFormat hop
      obtain ⟨hi, hws⟩ := hb.words_of_ok h
      simp [encode, hi, hws]
    · rw [decode, decodeBody_of_21_lt hop] at h
      cases h

/-- Settles O3: the decoder evaluates on each list. -/
theorem specWordsDecode : Obligations.SpecWordsDecode := ⟨rfl, rfl, rfl, rfl, rfl, rfl, rfl, rfl, rfl, rfl⟩

/-! ### Opcode words and widths -/

/-- R52, R53: each instruction has its entry in the table, with its number of words as width. -/
theorem tableEntry (i : Instr) : Laws.TableEntry.Statement i := by cases i <;> exact ⟨_, rfl, rfl, rfl⟩

theorem widthOf_opcode (i : Instr) : widthOf (BitVec.ofNat 16 i.opcode) = some (encode i).length := by
  obtain ⟨-, -, -, hw⟩ := tableEntry i
  exact hw

/-- Settles O5: the table's widths are compared opcode by opcode; a decode consumes the instruction's words, whose
number is the table's width. -/
theorem opcodeDecidesWidth : Obligations.OpcodeDecidesWidth := by
  refine ⟨fun op => ?_, fun op ws rest i h => ?_⟩
  · rcases lt_or_ge op.toNat 22 with hop | hop
    · unfold widthOf descriptor
      generalize op.toNat = n at hop
      revert n
      decide
    · have hnone : opcodeTable[op.toNat]? = none := List.getElem?_eq_none hop
      have hlist : ∀ l : List Nat, (∀ n ∈ l, n < 22) → op.toNat ∉ l := fun l hl hmem =>
        absurd (hl _ hmem) (Nat.not_lt.2 hop)
      rw [widthOf, descriptor, hnone, if_neg (hlist _ (by decide)), if_neg (hlist _ (by decide)),
        if_neg (hlist _ (by decide)), if_neg (hlist _ (by decide)), Option.map_none]
  · have hws := decodedWordsAreTheEncoding _ _ _ h
    obtain ⟨rfl, rfl⟩ := List.cons.inj hws
    refine ⟨_, widthOf_opcode i, ?_⟩
    simp [encode]
    omega

/-- Settles O6: no format answers 'no opcode', and a word above 21 has none. -/
theorem exactlyWordsAbove21AreNoOpcode : Obligations.ExactlyWordsAbove21AreNoOpcode := by
  refine fun op ws => ⟨fun h => ?_, fun h => decodeBody_of_21_lt h ws⟩
  by_contra hop
  obtain ⟨w, -, hb⟩ := decodeBody_hasFormat (op := op.toNat) (by omega)
  exact hb.ne_invalidOpcode ws h

/-! ### Operand words -/

theorem decodeOperand_of_le {num : Raw} (h : num.toNat ≤ 32767) :
    ∃ v, decodeOperand num = some (.lit v) ∧ v.toNat = num.toNat := by
  refine ⟨num.setWidth 15, by rw [decodeOperand, if_pos (by omega)], ?_⟩
  rw [BitVec.toNat_setWidth]
  omega

theorem decodeOperand_of_eq_reg {num : Raw} {n : RegIdx} (h : num.toNat = 32768 + n.val) :
    decodeOperand num = some (.reg n) := by
  have hn := n.isLt
  rw [decodeOperand, if_neg (by omega), dif_pos (by omega)]
  simp only [h, Nat.add_sub_cancel_left]

theorem decodeOperand_of_ge {num : Raw} (h : 32776 ≤ num.toNat) : decodeOperand num = none := by
  rw [decodeOperand, if_neg (by omega), dif_neg (by omega)]

/-- Settles O4: one lemma per class. -/
theorem operandWordClasses : Obligations.OperandWordClasses := by
  refine fun num => ⟨decodeOperand_of_le, fun ⟨hlo, hhi⟩ => ?_, decodeOperand_of_ge⟩
  let n : RegIdx := ⟨num.toNat - 32768, by omega⟩
  exact ⟨n, decodeOperand_of_eq_reg (by simp only [n]; omega), rfl⟩

end Sys2Proof

namespace Sys2Proof.Machine

/-- Settles O7: the class of the word gives the operand, and the operand's form its value. -/
theorem valueModeDenotesLiteralOrRegister : Obligations.ValueModeDenotesLiteralOrRegister := by
  refine fun s num => ⟨fun h => ?_, fun n h => ⟨_, decodeOperand_of_eq_reg h, rfl⟩, decodeOperand_of_ge⟩
  obtain ⟨v, hdec, hv⟩ := decodeOperand_of_le h
  exact ⟨_, hdec, hv⟩

/-- Settles O8: the class of the word gives the operand, and the operand's form its destination. -/
theorem destinationModeNamesCellOrRegister : Obligations.DestinationModeNamesCellOrRegister := by
  refine fun num => ⟨fun h => ?_, fun n h => ?_, decodeOperand_of_ge⟩
  · obtain ⟨v, hdec, hv⟩ := decodeOperand_of_le h
    exact ⟨_, v, hdec, rfl, hv, destOf_lit false v, destOf_lit true v⟩
  · exact ⟨_, decodeOperand_of_eq_reg h, rfl, fun regOnly => destOf_reg regOnly n⟩

/-! ### The listing -/

/-- R60, R54: the opcode word alone decides the address after the listing. -/
theorem listingNext_of_widthOf {op : Raw} {w : Nat} (h : widthOf op = some w) (ws : List Raw) (addr : Nat) :
    listingNext (op :: ws) addr = addr + w := by simp only [listingNext, List.head?_cons, Option.bind_some, h]

/-- R59: the text of an instruction's words is its listing. -/
theorem listingText_encode (i : Instr) (rest : List Raw) (addr : Nat) :
    listingText (encode i ++ rest) addr = listInstr i := by
  rw [listingText, decodeOfEncodeIsTheInstruction]

/-- Settles O60: the table's entry of an opcode word gives its width and its mnemonic. -/
theorem listingAdvancesByWidth : Obligations.ListingAdvancesByWidth := by
  refine ⟨fun op ws addr w h => listingNext_of_widthOf h ws addr, fun i rest addr => ⟨?_, ?_⟩⟩
  · exact Prod.ext (listingText_encode i rest addr) (listingNext_of_widthOf (widthOf_opcode i) _ addr)
  · obtain ⟨d, hd, -, hw⟩ := tableEntry i
    refine ⟨d, hd, by simp only [mnemonicOf, hd], ?_⟩
    simpa only [widthOf, hd, Option.map_some, Option.some.injEq] using hw

end Sys2Proof.Machine
end

section
/-! Memory (20_memory R33–R36, log entry 6) and the write of a destination (R66): a read by the policy, a write with its
frame, and the canonical form as data. -/

namespace Sys2Proof.Machine

/-! ### A listed cell, an allocated cell, a read -/

theorem Memory.allocated_iff (m : Memory) (a : Nat) :
    m.allocated a = true ↔ a < memCells ∧ ∃ v, m.find a = some v := by
  simp [Memory.allocated, Option.isSome_iff_exists]

theorem Memory.read_of_find {m : Memory} {a : Nat} {v : Raw} (ha : a < memCells) (h : m.find a = some v)
    (u : UnwrittenRead) : m.read u a = some v := by simp [Memory.read, ha, h]

theorem Memory.read_of_not_allocated {m : Memory} {a : Nat} (ha : a < memCells) (h : m.allocated a = false)
    (u : UnwrittenRead) : m.read u a = unlisted u := by simp [Memory.read_eq, h, ha]

theorem State.readCell_of_ge (s : State) {a : Nat} (h : memCells ≤ a) : s.readCell a = none :=
  if_neg (Nat.not_lt.2 h)

/-- R35. -/
theorem State.readCell_of_not_allocated {s : State} {a : Nat} (ha : a < memCells) (h : s.allocated a = false) :
    s.readCell a = unlisted s.params.unwrittenRead := Memory.read_of_not_allocated ha h _

/-- Settles O10: past memory no cell reads; a listed cell reads as listed, and an unlisted one as the policy says. -/
theorem cellReadFollowsPolicy : Obligations.CellReadFollowsPolicy := by
  refine fun s a => ⟨s.readCell_of_ge, fun v ha hv => ?_, fun h => ?_, fun ha h hp => ?_, fun ha h hp => ?_⟩
  · exact ⟨(s.mem.allocated_iff a).2 ⟨ha, v, hv⟩, Memory.read_of_find ha hv _⟩
  · obtain ⟨ha, v, hv⟩ := (s.mem.allocated_iff a).1 h
    exact ⟨v, hv, Memory.read_of_find ha hv _⟩
  · rw [State.readCell_of_not_allocated ha h, hp, unlisted]
  · rw [State.readCell_of_not_allocated ha h, hp, unlisted]

/-! ### Writes -/

/-- Settles O11: the laws of a write, for the readings, the allocation bits and the canonical form. -/
theorem cellWriteStoresAndAllocates : Obligations.CellWriteStoresAndAllocates :=
  fun s a v x => ⟨s.readCell_writeCell a v x, s.allocated_writeCell a v x, Memory.write_wf _ _⟩

/-- Settles O9: the law of WriteDest for registers and cells; its other fields are untouched in either form of the
destination. -/
theorem writeDestWritesOnlyItsTarget : Obligations.WriteDestWritesOnlyItsTarget := by
  refine fun s d v => ⟨wrote_writeDest s d v, ?_⟩
  simp [SameBoundary, SameStatus, SameRecord]

/-! ### The canonical form as data -/

theorem Memory.find_eq_none_of_wf {m : Memory} {a : Nat} (h : m.wf) (ha : memCells ≤ a) : m.find a = none := by
  obtain ⟨-, hlt⟩ := h
  induction m with
  | nil => rfl
  | cons e m ih =>
    obtain ⟨k, v⟩ := e
    rw [List.forall_mem_cons] at hlt
    obtain ⟨hk, hm⟩ := hlt
    rw [Memory.find, if_neg (Nat.ne_of_gt (Nat.lt_of_lt_of_le hk ha)), ih hm]

/-- The first address listed is the least, so it is the same in two rising lists that list the same addresses. -/
theorem Memory.not_lt_of_find_eq {k k' : Nat} {v v' : Raw} {m m' : Memory} (h' : ∀ e ∈ m', k' < e.1)
    (hfind : ∀ a, Memory.find ((k, v) :: m) a = Memory.find ((k', v') :: m') a) : ¬ k < k' := by
  intro hlt
  have hk := hfind k
  rw [Memory.find_none_of_lt (m := (k', v') :: m')] at hk
  · simp [Memory.find] at hk
  · exact List.forall_mem_cons.2 ⟨hlt, fun e he => hlt.trans (h' e he)⟩

/-- Rising lists with the same entry for every address are equal: by induction, the first entries are equal and neither
address is listed again. -/
theorem Memory.eq_of_find_eq {m m' : Memory} (h : m.Pairwise (fun x y => x.1 < y.1))
    (h' : m'.Pairwise (fun x y => x.1 < y.1)) (hfind : ∀ a, m.find a = m'.find a) : m = m' := by
  induction m generalizing m' with
  | nil =>
    cases m' with
    | nil => rfl
    | cons e m' => simpa [Memory.find] using hfind e.1
  | cons e m ih =>
    cases m' with
    | nil => simpa [Memory.find] using hfind e.1
    | cons e' m' =>
      obtain ⟨k, v⟩ := e
      obtain ⟨k', v'⟩ := e'
      obtain ⟨hk, hm⟩ := List.pairwise_cons.1 h
      obtain ⟨hk', hm'⟩ := List.pairwise_cons.1 h'
      obtain rfl : k = k' := le_antisymm (Nat.le_of_not_lt (Memory.not_lt_of_find_eq hk fun a => (hfind a).symm))
        (Nat.le_of_not_lt (Memory.not_lt_of_find_eq hk' hfind))
      obtain rfl : v = v' := by simpa [Memory.find] using hfind k
      rw [ih hm hm' fun a => ?_]
      by_cases ha : a = k
      · rw [ha, Memory.find_none_of_lt hk, Memory.find_none_of_lt hk']
      · simpa [Memory.find, ha] using hfind a

theorem Memory.read_fault_of_lt (m : Memory) {a : Nat} (ha : a < memCells) : m.read .fault a = m.find a := by
  cases h : m.find a <;> simp [Memory.read, ha, h, unlisted]

theorem Memory.find_of_not_allocated {m : Memory} {a : Nat} (ha : a < memCells) (h : m.allocated a = false) :
    m.find a = none := by simpa [Memory.allocated, ha] using h

/-- Under Fault the reading is the entry; under either policy the bit tells a reading of an entry from one the policy
makes up. -/
theorem Memory.find_eq_of_read_eq {u : UnwrittenRead} {m m' : Memory} {a : Nat} (ha : a < memCells)
    (hread : m.read u a = m'.read u a) (hbit : u = .fault ∨ m.allocated a = m'.allocated a) :
    m.find a = m'.find a := by
  rcases hbit with rfl | hbit
  · rwa [Memory.read_fault_of_lt m ha, Memory.read_fault_of_lt m' ha] at hread
  · cases hb : m.allocated a with
    | false => rw [Memory.find_of_not_allocated ha hb, Memory.find_of_not_allocated ha (hbit ▸ hb)]
    | true => simpa [Memory.read_eq, hb, ← hbit] using hread

/-- Settles O12: below 32768 equal readings and bits give equal entries, above no entry is listed, and rising lists with
equal entries are equal. -/
theorem canonicalMemoriesAreEqualWhenReadAlike : Obligations.CanonicalMemoriesAreEqualWhenReadAlike := by
  intro u m m' h h' hread hbit
  refine Memory.eq_of_find_eq h.1 h'.1 fun a => ?_
  rcases lt_or_ge a memCells with ha | ha
  · exact Memory.find_eq_of_read_eq ha (hread a) (hbit.imp_right fun hbit => hbit a)
  · rw [Memory.find_eq_none_of_wf h ha, Memory.find_eq_none_of_wf h' ha]

end Sys2Proof.Machine
end

section
/-! Reset and launch (10_state R26, 70_reset_and_hazards R116, R117), and the words of an image file (20_memory R32). -/

namespace Sys2Proof.Machine

theorem State.readReg_reset (n : RegIdx) : State.reset.readReg n = 0 := by
  simp [State.readReg, State.reset, Vector.get_eq_getElem]

theorem Memory.allocated_nil (a : Nat) : Memory.allocated [] a = false := by simp [Memory.allocated, Memory.find]

theorem Memory.read_nil_of_lt (u : UnwrittenRead) {a : Nat} (ha : a < memCells) : Memory.read u [] a = unlisted u :=
  Memory.read_of_not_allocated ha (Memory.allocated_nil a) u

/-- Settles O57: nothing is listed at reset, and the policy there is Fault. -/
theorem resetLeavesTheSpecsValues : Obligations.ResetLeavesTheSpecsValues := by
  refine ⟨State.readReg_reset, rfl, rfl, rfl, fun a => ⟨?_, Memory.allocated_nil a⟩, rfl⟩
  rcases lt_or_ge a memCells with ha | ha
  · exact Memory.read_nil_of_lt .fault ha
  · exact State.reset.readCell_of_ge ha

/-! ### Launch -/

/-- R116: the state a launch leaves. -/
def State.launched (p : Params) (image : List Raw) : State :=
  { State.reset with params := p, mem := Memory.load [] 0 image }

theorem State.boot_of_le (p : Params) {image : List Raw} (h : image.length ≤ memCells) :
    State.boot p image = some (State.launched p image) := if_pos h

theorem State.boot_of_gt (p : Params) {image : List Raw} (h : memCells < image.length) :
    State.boot p image = none := if_neg (Nat.not_le.2 h)

theorem State.boot_eq_some {p : Params} {image : List Raw} {s : State} (h : State.boot p image = some s) :
    s = State.launched p image := by
  rcases le_or_gt image.length memCells with hle | hgt
  · exact (Option.some.inj ((State.boot_of_le p hle).symm.trans h)).symm
  · rw [State.boot_of_gt p hgt] at h
    cases h

theorem State.readCell_launched (p : Params) {image : List Raw} {a : Nat} (ha : a < memCells) :
    (State.launched p image).readCell a = if a < image.length then image[a]? else unlisted p.unwrittenRead := by
  simp [State.readCell, State.launched, Memory.read_load, Memory.read_nil_of_lt _ ha, ha]

theorem State.allocated_launched (p : Params) {image : List Raw} (h : image.length ≤ memCells) (a : Nat) :
    (State.launched p image).allocated a = decide (a < image.length) := by
  have hlt : a < image.length ∧ a < memCells ↔ a < image.length := by omega
  simp [State.allocated, State.launched, Memory.allocated_load, Memory.allocated_nil, hlt]

/-- Settles O58: a launch within memory loads the image into an empty memory; everything else is as at reset. -/
theorem launchLoadsTheImage : Obligations.LaunchLoadsTheImage := by
  refine fun p image => ⟨fun h => ⟨_, State.boot_of_le p h, rfl, fun a ha => ?_, fun a hge ha => ?_,
    State.allocated_launched p h, State.readReg_reset, rfl, rfl, rfl⟩, State.boot_of_gt p⟩
  · rw [State.readCell_launched p (Nat.lt_of_lt_of_le ha h), if_pos ha]
  · rw [State.readCell_launched p ha, if_neg (Nat.not_lt.2 hge)]

theorem stateInv_launched (p : Params) (image : List Raw) : StateInv (State.launched p image) :=
  ⟨Memory.load_wf image 0 Memory.wf_nil, Nat.zero_le _, fun _ _ => Nat.zero_le _⟩

/-- Settles O46: at reset the memory and the stack are empty and the pc is 0; a load keeps the canonical form. -/
theorem launchHasStateInvariant : Obligations.LaunchHasStateInvariant := by
  refine ⟨stateInv_launched {} [], fun p image s h => ?_⟩
  rw [State.boot_eq_some h]
  exact stateInv_launched p image

/-! ### Image bytes -/

/-- G2: a word is its low byte plus 256 times its high byte. -/
theorem word_of_bytes (w : Raw) :
    BitVec.ofNat 16 ((w.setWidth 8).toNat + 256 * ((w >>> 8).setWidth 8).toNat) = w := by
  apply BitVec.eq_of_toNat_eq
  have hw := w.isLt
  simp only [BitVec.toNat_ofNat, BitVec.toNat_setWidth, BitVec.toNat_ushiftRight, Nat.shiftRight_eq_div_pow]
  omega

theorem imageOfBytes_flatMap_bytes (ws : List Raw) :
    imageOfBytes (ws.flatMap fun w : Raw => [w.setWidth 8, (w >>> 8).setWidth 8]) = some ws := by
  induction ws with
  | nil => rfl
  | cons w ws ih =>
    rw [List.flatMap_cons, List.cons_append, List.cons_append, List.nil_append, imageOfBytes, ih, word_of_bytes]

/-- I18: with the pairs taken away, one byte is left over. -/
theorem imageOfBytes_of_odd : ∀ {bs : List (BitVec 8)}, bs.length % 2 = 1 → imageOfBytes bs = none
  | [_], _ => rfl
  | lo :: hi :: rest, h => by
    have hrest : rest.length % 2 = 1 := by simpa [Nat.add_assoc] using h
    rw [imageOfBytes, imageOfBytes_of_odd hrest]

/-- Settles O59: the bytes of each word are read back as it, and an odd list is refused. -/
theorem imageBytesAreLittleEndian : Obligations.ImageBytesAreLittleEndian :=
  ⟨imageOfBytes_flatMap_bytes, fun _ => imageOfBytes_of_odd⟩

end Sys2Proof.Machine
end

section
/-! Arithmetic and comparison (43_alu R88–R95): each instruction writes one word; what number that word has. -/

namespace Sys2Proof.Machine

/-! ### The numbers of the results -/

@[simp] theorem narrow_toNat (n : Nat) : (narrow n).toNat = n % 32768 := rfl

theorem narrow_toNat_of_lt {n : Nat} (h : n < 32768) : (narrow n).toNat = n := Nat.mod_eq_of_lt h

theorem conditionWord_toNat (b : Bool) : (conditionWord b).toNat = if b then 1 else 0 := by cases b <;> rfl

theorem aluMod_toNat (b c : Word) : (aluMod b c).toNat = b.toNat % c.toNat :=
  narrow_toNat_of_lt (Nat.lt_of_le_of_lt (Nat.mod_le _ _) b.isLt)

theorem aluAnd_toNat (b c : Word) : (aluAnd b c).toNat = b.toNat &&& c.toNat :=
  narrow_toNat_of_lt (Nat.and_lt_two_pow _ c.isLt)

theorem aluOr_toNat (b c : Word) : (aluOr b c).toNat = b.toNat ||| c.toNat :=
  narrow_toNat_of_lt (Nat.or_lt_two_pow b.isLt c.isLt)

theorem aluNot_toNat (b : Word) : (aluNot b).toNat = 32767 - b.toNat := narrow_toNat_of_lt (by omega)

theorem aluNot_aluNot (b : Word) : aluNot (aluNot b) = b := by
  have hb := b.isLt
  apply BitVec.eq_of_toNat_eq
  rw [aluNot_toNat, aluNot_toNat]
  omega

/-! ### The statements -/

/-- An instruction that is a `writeResult` computes the number of its word. -/
theorem computesWord_of_toNat {i : Instr} {regOnly : Bool} {a : Operand} {r : Word} {v width : Nat} {s : State}
    (hr : r.toNat = v) (h : exec i s = writeResult regOnly a r width s) : ComputesWord i regOnly a v width s :=
  hr ▸ computesWord_of_writeResult h

/-- Settles O25: words are equal when their numbers are. -/
theorem eqWritesOneOrZero : Obligations.EqWritesOneOrZero := by
  refine fun a b c s => ⟨rfl, computesWord_of_toNat ?_ rfl⟩
  simp only [conditionWord_toNat, isEqual, decide_eq_true_eq, BitVec.toNat_inj]

/-- Settles O26: the comparison is one of numbers. -/
theorem gtComparesUnsigned : Obligations.GtComparesUnsigned := by
  refine fun a b c s => ⟨rfl, computesWord_of_toNat ?_ rfl⟩
  simp only [conditionWord_toNat, isGreater, decide_eq_true_eq]

/-- Settles O27: `add` narrows the exact sum. -/
theorem addIsSumModulo32768 : Obligations.AddIsSumModulo32768 :=
  fun _ _ _ _ => ⟨rfl, computesWord_of_toNat (narrow_toNat _) rfl⟩

/-- Settles O28: `mult` narrows the exact product. -/
theorem multIsProductModulo32768 : Obligations.MultIsProductModulo32768 :=
  fun _ _ _ _ => ⟨rfl, computesWord_of_toNat (narrow_toNat _) rfl⟩

/-- Settles O30: AND of two words stays below 32768. -/
theorem andIsBitwise : Obligations.AndIsBitwise :=
  fun _ _ _ _ => ⟨rfl, computesWord_of_toNat (aluAnd_toNat _ _) rfl⟩

/-- Settles O31: OR of two words stays below 32768. -/
theorem orIsBitwise : Obligations.OrIsBitwise :=
  fun _ _ _ _ => ⟨rfl, computesWord_of_toNat (aluOr_toNat _ _) rfl⟩

/-- R95 to a register. -/
theorem exec_not_reg (n : RegIdx) (b : Operand) (s : State) :
    exec (.not (.reg n) b) s = .next ((s.writeReg n (aluNot (value s b))).advance 3) := rfl

/-- Settles O32: the second `not` reads the register the first one wrote. -/
theorem notIsComplement : Obligations.NotIsComplement := by
  refine fun a b s => ⟨rfl, computesWord_of_toNat (aluNot_toNat _) rfl, fun n t ht => ?_⟩
  rw [exec_not_reg] at ht
  cases ht
  exact ⟨_, exec_not_reg _ _ _, by simp [value, aluNot_aluNot]⟩

/-! ### `mod`, which can fault -/

/-- R67, R103: an instruction whose meaning begins with its destination faults InvalidOperand where that is bad. -/
theorem faults_of_withDest {i : Instr} {regOnly : Bool} {a : Operand} {s : State} {k : Dest → Answer}
    (h : exec i s = withDest regOnly a s k) (hd : destOf regOnly a = none) : Faults i s .invalidOperand :=
  ⟨_, h.trans (withDest_none hd), faultedWith_enterFault s _⟩

/-- R92: with a divisor other than 0, `mod` only computes a word. -/
theorem exec_mod_of_ne_zero (a b : Operand) {c : Operand} {s : State} (hc : (value s c).toNat ≠ 0) :
    exec (.mod a b c) s = writeResult s.params.regOnlyDest.mod a (aluMod (value s b) (value s c)) 4 s := by
  simp only [exec, execMod, writeResult, if_neg hc]

theorem exec_mod_of_zero {a : Operand} (b : Operand) {c : Operand} {s : State} {d : Dest}
    (hd : destOf s.params.regOnlyDest.mod a = some d) (hc : (value s c).toNat = 0) :
    exec (.mod a b c) s = .next (s.enterFault .divideByZero) := by
  simp only [exec, execMod, withDest_some hd, if_pos hc, raise]

/-- Settles O29: the divisor decides, after the destination. -/
theorem modIsRemainderOrDivideByZero : Obligations.ModIsRemainderOrDivideByZero := by
  refine fun a b c s => ⟨rfl, fun hc => ?_, fun d hd hc => ?_, faults_of_withDest rfl⟩
  · exact computesWord_of_toNat (aluMod_toNat _ _) (exec_mod_of_ne_zero a b hc)
  · exact ⟨_, exec_mod_of_zero b hd hc, faultedWith_enterFault s _⟩

end Sys2Proof.Machine
end

section
/-! Control transfer (41_control R76, R78–R80): `halt`, the conditional jumps and `call`. -/

namespace Sys2Proof.Machine

/-- Settles O13: `halt` writes RUN alone. -/
theorem haltStopsTheRun : Obligations.HaltStopsTheRun := by
  refine fun s => ⟨rfl, _, rfl, ?_⟩
  simp [SameRegs, SameCells, SameBoundary, SameRecord]

/-! ### The conditional jumps -/

theorem isNonzero_eq_true (v : Word) : isNonzero v = true ↔ v.toNat ≠ 0 := decide_eq_true_iff

/-- R78. -/
theorem exec_jt (a b : Operand) (s : State) :
    exec (.jt a b) s = .next (if (value s a).toNat = 0 then s.advance 3 else s.jump (value s b)) := by
  simp only [exec, execJt, isNonzero_eq_true, ne_eq, ite_not]

/-- R79. -/
theorem exec_jf (a b : Operand) (s : State) :
    exec (.jf a b) s = .next (if (value s a).toNat = 0 then s.jump (value s b) else s.advance 3) := by
  simp only [exec, execJf, isNonzero_eq_true, ne_eq, ite_not]

/-- D8: the second operand word is decoded whatever the first one is. -/
theorem decodeW3_of_bad_second (f : Operand → Operand → Instr) (a : Operand) {bad : Raw} (h : 32776 ≤ bad.toNat) :
    decodeW3 f [encodeOperand a, bad] = .error (.invalidOperand 2) := by
  simp [decodeW3, decodeOperand_of_ge h]

/-- Settles O15: both branches only move the pc. -/
theorem jtJumpsWhenNonzero : Obligations.JtJumpsWhenNonzero := by
  refine fun a b s => ⟨rfl, ⟨_, exec_jt a b s, ?_⟩, fun bad => decodeW3_of_bad_second _ a⟩
  split
  · exact onlyPc_advance s 3
  · exact onlyPc_jump s _

/-- Settles O16: both branches only move the pc. -/
theorem jfJumpsWhenZero : Obligations.JfJumpsWhenZero := by
  refine fun a b s => ⟨rfl, ⟨_, exec_jf a b s, ?_⟩, fun bad => decodeW3_of_bad_second _ a⟩
  split
  · exact onlyPc_jump s _
  · exact onlyPc_advance s 3

/-! ### Room on the stack, and `call` -/

/-- R19, D14: a finite STACK_DEPTH bounds the stack. -/
theorem State.stackHasRoom_iff (s : State) :
    s.stackHasRoom = true ↔ ∀ d, s.params.stackDepth = some d → s.stack.length < d := by
  unfold State.stackHasRoom
  split <;> simp_all

theorem State.stackHasRoom_of_full {s : State} {d : Nat} (hd : s.params.stackDepth = some d)
    (hfull : d ≤ s.stack.length) : s.stackHasRoom = false := by
  simpa [State.stackHasRoom, hd] using hfull

/-- R80: with a return address in memory and room on the stack. -/
theorem exec_call_of_room (a : Operand) {s : State} (hpc : s.pc.toNat + 2 ≤ 32767) (hroom : s.stackHasRoom = true) :
    exec (.call a) s = .next ((s.pushWord (wordOfRaw (s.next 2))).jump (value s a)) := by
  simp only [exec, execCall, if_neg (Nat.not_lt.2 hpc), if_pos hroom]

theorem exec_call_past_memory (a : Operand) {s : State} (hpc : 32767 < s.pc.toNat + 2) :
    exec (.call a) s = .next (s.enterFault (.undefinedAddress (s.next 2))) := if_pos hpc

theorem exec_call_of_full (a : Operand) {s : State} (hpc : s.pc.toNat + 2 ≤ 32767) (hroom : s.stackHasRoom = false) :
    exec (.call a) s = .refused .stackDepthExceeded := by
  simp only [exec, execCall, if_neg (Nat.not_lt.2 hpc), hroom, Bool.false_eq_true, if_false]

/-- R17: the pc has room for every width above it. -/
theorem State.next_toNat {s : State} {width : Nat} (h : s.pc.toNat + width < 65536) :
    (s.next width).toNat = s.pc.toNat + width := by
  simp only [State.next, BitVec.toNat_add, BitVec.toNat_ofNat]
  omega

/-- R80: the return address is a word, so the push keeps its number. -/
theorem wordOfRaw_next_toNat {s : State} {width : Nat} (h : s.pc.toNat + width ≤ 32767) :
    (wordOfRaw (s.next width)).toNat = s.pc.toNat + width := by
  rw [wordOfRaw, BitVec.toNat_ofNat, State.next_toNat (by omega)]
  omega

theorem onlyPcAndStack_pushWord_jump (s : State) (w target : Word) :
    OnlyPcAndStack (rawOfWord target) (w :: s.stack) s ((s.pushWord w).jump target) := by
  simp [OnlyPcAndStack, SameRegs, SameCells, SameBoundary, SameStatus, SameRecord]

/-- Settles O17: the return address is checked before the room on the stack. -/
theorem callPushesReturnAddress : Obligations.CallPushesReturnAddress := by
  refine fun a s => ⟨rfl, fun hpc hroom => ?_, fun hpc => ?_, fun d hpc hd hfull => ?_⟩
  · exact ⟨_, _, exec_call_of_room a hpc (s.stackHasRoom_iff.2 hroom), wordOfRaw_next_toNat hpc,
      onlyPcAndStack_pushWord_jump s _ _⟩
  · exact ⟨_, exec_call_past_memory a hpc, faultedWith_enterFault s _⟩
  · exact exec_call_of_full a hpc (State.stackHasRoom_of_full hd hfull)

end Sys2Proof.Machine
end

section
/-! Stack, memory access and input (42_data_stack R84–R87, 44_io R97). -/

namespace Sys2Proof.Machine

/-! ### `push` -/

theorem exec_push_of_room (a : Operand) {s : State} (hroom : s.stackHasRoom = true) :
    exec (.push a) s = .next ((s.pushWord (value s a)).advance 2) := if_pos hroom

theorem exec_push_of_full (a : Operand) {s : State} (hroom : s.stackHasRoom = false) :
    exec (.push a) s = .refused .stackDepthExceeded := by
  simp only [exec, execPush, hroom, Bool.false_eq_true, if_false]

theorem exec_push_eq_next {a : Operand} {s t : State} (h : exec (.push a) s = .next t) :
    t = (s.pushWord (value s a)).advance 2 := by
  cases hroom : s.stackHasRoom with
  | true =>
    rw [exec_push_of_room a hroom] at h
    cases h
    rfl
  | false =>
    rw [exec_push_of_full a hroom] at h
    cases h

theorem onlyPcAndStack_pushWord_advance (s : State) (w : Word) (width : Nat) :
    OnlyPcAndStack (s.next width) (w :: s.stack) s ((s.pushWord w).advance width) := by
  simp [OnlyPcAndStack, SameRegs, SameCells, SameBoundary, SameStatus, SameRecord]

/-- Settles O21: the room on the stack decides. -/
theorem pushPutsValueOnTop : Obligations.PushPutsValueOnTop := by
  refine fun a s => ⟨rfl, fun hroom => ?_, fun d hd hfull => ?_⟩
  · exact ⟨_, exec_push_of_room a (s.stackHasRoom_iff.2 hroom), onlyPcAndStack_pushWord_advance s _ 2⟩
  · exact exec_push_of_full a (State.stackHasRoom_of_full hd hfull)

/-! ### `pop` -/

section
variable {a : Operand} {s : State} {d : Dest} (hd : destOf s.params.regOnlyDest.pop a = some d)
include hd

/-- R85. -/
theorem exec_pop_of_stack_cons {top : Word} {rest : List Word} (h : s.stack = top :: rest) :
    exec (.pop a) s = .next ((s.dropTop.writeDest d top).advance 2) := by
  simp only [exec, execPop, withDest_some hd, h, finish]

theorem exec_pop_of_stack_nil (h : s.stack = []) : exec (.pop a) s = .next (s.enterFault .stackUnderflow) := by
  simp only [exec, execPop, withDest_some hd, h, raise]

end

/-- Settles O22: the destination decides, then the stack; after a push the stack's top is the word pushed. -/
theorem popMovesTopToDestination : Obligations.PopMovesTopToDestination := by
  refine fun a s => ⟨rfl, fun d top rest hd hs => ?_, fun d hd hs => ?_, faults_of_withDest rfl, fun b d t hd ht => ?_⟩
  · refine ⟨_, exec_pop_of_stack_cons hd hs, wrote_writeDest s.dropTop d top, ?_⟩
    simp [State.next, hs, SameBoundary, SameStatus, SameRecord]
  · exact ⟨_, exec_pop_of_stack_nil hd hs, faultedWith_enterFault s _⟩
  · obtain rfl := exec_push_eq_next ht
    exact ⟨_, exec_pop_of_stack_cons (s := (s.pushWord (value s b)).advance 2) hd rfl, wrote_writeDest _ d _, by simp⟩

/-! ### `rmem` and `wmem` -/

theorem wordOfRaw_toNat (v : Raw) : (wordOfRaw v).toNat = v.toNat % 32768 := rfl

section
variable {a b : Operand} {s : State} {d : Dest} (hd : destOf s.params.regOnlyDest.rmem a = some d)
include hd

/-- R86. -/
theorem exec_rmem_of_readable {v : Raw} (h : s.readCell (value s b).toNat = some v) :
    exec (.rmem a b) s = .next ((s.writeDest d (wordOfRaw v)).advance 3) := by
  simp only [exec, execRmem, withDest_some hd, h, finish]

theorem exec_rmem_of_unreadable (h : s.readCell (value s b).toNat = none) :
    exec (.rmem a b) s = .next (s.enterFault (.undefinedAddress (rawOfWord (value s b)))) := by
  simp only [exec, execRmem, withDest_some hd, h, raise]

end

/-- Settles O23: the destination decides, then the cell. -/
theorem rmemReadsCell : Obligations.RmemReadsCell := by
  refine fun a b s => ⟨rfl, fun d v hd hv => ?_, fun d hd hv => ?_, faults_of_withDest rfl⟩
  · exact ⟨_, exec_rmem_of_readable hd hv, wordOfRaw_toNat v ▸ wroteResult_finish s d _ 3⟩
  · exact ⟨_, exec_rmem_of_unreadable hd hv, faultedWith_enterFault s _⟩

/-- Settles O24: `wmem` ends as an instruction with the cell at value(a) for a destination. -/
theorem wmemStoresAtValueOfA : Obligations.WmemStoresAtValueOfA :=
  fun a b s => ⟨rfl, _, rfl, wroteResult_finish s (.mem (value s a)) (value s b) 3⟩

/-! ### `in` -/

/-- R97, with a word ready. -/
theorem exec_inp_of_input_cons {a : Operand} {s : State} {d : Dest} {w : Word} {rest : List Word}
    (hd : destOf s.params.regOnlyDest.inp a = some d) (h : s.input = w :: rest) :
    exec (.inp a) s = .next ((s.dropInput.writeDest d w).advance 2) := by
  simp only [exec, execIn, withDest_some hd, h, finish]

/-- Settles O34: the destination decides, then the input. -/
theorem inTakesOneWordOrWaits : Obligations.InTakesOneWordOrWaits := by
  refine fun a s => ⟨rfl, fun d w rest hd hs => ?_, fun d => execIn_of_no_input, faults_of_withDest rfl⟩
  refine ⟨_, exec_inp_of_input_cons hd hs, wrote_writeDest s.dropInput d w, ?_⟩
  simp [State.next, hs, SameStatus, SameRecord]

end Sys2Proof.Machine
end

section
/-! Fetch and decode in a step (40_sequencer_decode R61–R63, R68; 60_exceptions R103): the words fetched are the cells
read, so a missing cell cuts them short, a bad operand word is refused with all words there, and the cells of an
instruction fetch it. -/

namespace Sys2Proof.Machine

/-! ### The words fetched -/

section
variable {s : State}

theorem readRun_succ {a : Nat} {v : Raw} (h : s.readCell a = some v) (n : Nat) :
    readRun s a (n + 1) = v :: readRun s (a + 1) n := by simp only [readRun, h]

/-- Word k of a run is the cell k on. -/
theorem readRun_getElem? {a n k : Nat} (hk : k < (readRun s a n).length) :
    (readRun s a n)[k]? = s.readCell (a + k) := by
  induction n generalizing a k with
  | zero => cases hk
  | succ n ih =>
    cases ha : s.readCell a with
    | none => simp [readRun, ha] at hk
    | some v =>
      rw [readRun_succ ha] at hk ⊢
      cases k with
      | zero => simp [ha]
      | succ k =>
        rw [List.getElem?_cons_succ, ih (Nat.lt_of_succ_lt_succ hk), Nat.add_right_comm, Nat.add_assoc]

/-- A run ends where it is whole, or at the first cell that cannot be read. -/
theorem readRun_length {a n k : Nat} (hk : k ≤ n) (hread : ∀ j, j < k → s.readCell (a + j) ≠ none)
    (hend : k < n → s.readCell (a + k) = none) : (readRun s a n).length = k := by
  induction n generalizing a k with
  | zero => exact (Nat.le_zero.1 hk).symm
  | succ n ih =>
    cases k with
    | zero =>
      have hnone : s.readCell a = none := hend n.succ_pos
      simp only [readRun, hnone, List.length_nil]
    | succ k =>
      obtain ⟨v, hv⟩ : ∃ v, s.readCell a = some v := Option.ne_none_iff_exists'.1 (hread 0 k.succ_pos)
      rw [readRun_succ hv, List.length_cons, ih (Nat.le_of_succ_le_succ hk) (fun j hj => ?_) fun hlt => ?_]
      · simpa only [Nat.add_right_comm, Nat.add_assoc] using hread (j + 1) (Nat.succ_lt_succ hj)
      · simpa only [Nat.add_right_comm, Nat.add_assoc] using hend (Nat.succ_lt_succ hlt)

theorem fetchWords_of_unreadable (h : s.readCell s.pc.toNat = none) : fetchWords s = [] := by
  simp only [fetchWords, h]

theorem fetchWords_of_widthOf {op : Raw} {w : Nat} (h : s.readCell s.pc.toNat = some op) (hw : widthOf op = some w) :
    fetchWords s = op :: readRun s (s.pc.toNat + 1) (w - 1) := by rw [fetchWords_of_readCell h, hw, Option.getD_some]

/-- R44, R63: word k of a fetch is the cell at pc + k. -/
theorem fetchWords_getElem? {k : Nat} (hk : k < (fetchWords s).length) :
    (fetchWords s)[k]? = s.readCell (s.pc.toNat + k) := by
  cases h : s.readCell s.pc.toNat with
  | none =>
    rw [fetchWords_of_unreadable h] at hk
    cases hk
  | some op =>
    rw [fetchWords_of_readCell h] at hk ⊢
    cases k with
    | zero => exact h.symm
    | succ k =>
      rw [List.getElem?_cons_succ, readRun_getElem? (Nat.lt_of_succ_lt_succ hk), Nat.add_right_comm, Nat.add_assoc]

/-! ### What fetch answers -/

theorem fetch_of_decode_ok {i : Instr} {rest : List Raw} (h : decode (fetchWords s) = .ok (i, rest)) :
    fetch s = .ok i := by simp only [fetch, h]

theorem fetch_of_truncated (h : decode (fetchWords s) = .error .truncated) :
    fetch s = .error (.undefinedAddress (s.next (fetchWords s).length)) := by simp only [fetch, h]

theorem fetch_of_invalidOperand {k : Nat} (h : decode (fetchWords s) = .error (.invalidOperand k)) :
    fetch s = .error .invalidOperand := by simp only [fetch, h]

/-- R61. -/
theorem fetch_of_unreadable (h : s.readCell s.pc.toNat = none) : fetch s = .error (.undefinedAddress s.pc) := by
  have hw := fetchWords_of_unreadable h
  rw [fetch_of_truncated (by rw [hw]; rfl), hw]
  simp [State.next]

/-- The opcode word 0 is `halt`. -/
theorem fetch_of_zero (h : s.readCell s.pc.toNat = some 0) : fetch s = .ok .halt :=
  fetch_of_decode_ok (rest := []) (by rw [fetchWords_of_widthOf h rfl]; rfl)

/-! ### Steps that fail in fetch or decode -/

/-- A fault of fetch or decode is the end of the step. -/
theorem step_faulted_of_fetch_error {c : Cause} (hr : s.run = .running) (hf : fetch s = .error c) :
    ∃ t, step s = .next t ∧ FaultedWith c s t := ⟨_, step_of_fetch_error hr hf, faultedWith_enterFault s c⟩

end

theorem step_ne_next_of_not_running {s : State} (h : s.run ≠ .running) (t : State) : step s ≠ .next t :=
  fun ht => h (step_cases ht).1

/-- Settles O36: an opcode cell that cannot be read is the fault of fetch; the other clauses say by the policy where a
cell cannot be read, or reads 0. -/
theorem opcodeFetchFaultsWhereNoCellReads : Obligations.OpcodeFetchFaultsWhereNoCellReads := by
  intro s
  refine ⟨step_ne_next_of_not_running, fun hr => ?_⟩
  have hfault : s.readCell s.pc.toNat = none → ∃ t, step s = .next t ∧ FaultedWith (.undefinedAddress s.pc) s t :=
    fun h => step_faulted_of_fetch_error hr (fetch_of_unreadable h)
  refine ⟨hfault, fun hge => hfault (s.readCell_of_ge hge), fun h hp => hfault ?_, fun hlt h hp => ?_⟩
  · rcases lt_or_ge s.pc.toNat memCells with hlt | hge
    · rw [State.readCell_of_not_allocated hlt h, hp, unlisted]
    · exact s.readCell_of_ge hge
  · refine step_of_fetch_ok hr (fetch_of_zero ?_)
    rw [State.readCell_of_not_allocated hlt h, hp, unlisted]

/-- Settles O38: the words fetched end before the missing cell, so the opcode's format is cut short. -/
theorem missingOperandWordFaults : Obligations.MissingOperandWordFaults := by
  intro s op w k hr hop hw hk1 hkw hread hnone
  obtain ⟨k, rfl⟩ := Nat.exists_eq_add_of_le' hk1
  have hwords := fetchWords_of_widthOf hop hw
  have hlen : (readRun s (s.pc.toNat + 1) (w - 1)).length = k := by
    refine readRun_length (by omega) (fun j hj => ?_) fun _ => ?_
    · simpa only [Nat.add_right_comm, Nat.add_assoc] using hread (j + 1) (by omega) (by omega)
    · simpa only [Nat.add_right_comm, Nat.add_assoc] using hnone
  have hdec : decode (fetchWords s) = .error .truncated := by
    rw [hwords, decode]
    exact (hasFormat_of_widthOf hw).truncated (by omega)
  have hf := fetch_of_truncated hdec
  rw [hwords, List.length_cons, hlen] at hf
  exact step_faulted_of_fetch_error hr hf

/-- Settles O39: all operand words are fetched, and the bad one is among them. -/
theorem invalidOperandWordFaults : Obligations.InvalidOperandWordFaults := by
  intro s op v w k hr hop hw hread hk1 hkw hv hbad
  obtain ⟨k, rfl⟩ := Nat.exists_eq_add_of_le' hk1
  have hlen : (readRun s (s.pc.toNat + 1) (w - 1)).length = w - 1 := by
    refine readRun_length le_rfl (fun j hj => ?_) fun hlt => absurd hlt (lt_irrefl _)
    simpa only [Nat.add_right_comm, Nat.add_assoc] using hread (j + 1) (by omega) (by omega)
  have hmem : v ∈ readRun s (s.pc.toNat + 1) (w - 1) := by
    refine List.mem_of_getElem? (i := k) ?_
    rw [readRun_getElem? (by omega)]
    simpa only [Nat.add_right_comm, Nat.add_assoc] using hv
  obtain ⟨j, hj⟩ := (hasFormat_of_widthOf hw).invalidOperand (by omega) hmem (decodeOperand_of_ge hbad)
  refine step_faulted_of_fetch_error hr (fetch_of_invalidOperand (k := j) ?_)
  rw [fetchWords_of_widthOf hop hw, decode, hj]

/-! ### Steps that fetch an instruction -/

/-- R70: the cells of an instruction's words, read from the pc, fetch it. -/
theorem fetch_of_encode {s : State} {i : Instr}
    (h : ∀ k, k < (encode i).length → s.readCell (s.pc.toNat + k) = (encode i)[k]?) : fetch s = .ok i := by
  have hop : s.readCell s.pc.toNat = some (BitVec.ofNat 16 i.opcode) := h 0 (Nat.succ_pos _)
  have hrun : readRun s (s.pc.toNat + 1) (i.operands.map encodeOperand).length = i.operands.map encodeOperand := by
    refine readRun_eq fun k hk => ?_
    simpa only [encode, List.getElem?_cons_succ, Nat.add_right_comm, Nat.add_assoc] using
      h (k + 1) (Nat.succ_lt_succ hk)
  have hwords : fetchWords s = encode i := by
    rw [fetchWords_of_widthOf hop (widthOf_opcode i)]
    exact congrArg _ hrun
  refine fetch_of_decode_ok (rest := []) ?_
  rw [hwords, ← decodeOfEncodeIsTheInstruction i [], List.append_nil]

/-- Settles O35: the words that decode are those of the instruction. -/
theorem stepExecutesTheDecodedInstruction : Obligations.StepExecutesTheDecodedInstruction := by
  intro s ws i hr hdec h
  obtain rfl : ws = encode i := by simpa using decodedWordsAreTheEncoding ws [] i hdec
  exact step_of_fetch_ok hr (fetch_of_encode h)

/-- Settles O44: `wmem` leaves its word in the cell, and each word of the next fetch is a cell. -/
theorem nextFetchSeesTheStoredOpcode : Obligations.NextFetchSeesTheStoredOpcode := by
  intro s a b hr hf
  have hpc : s.pc.toNat < 32768 := fetch_ok_pc hf
  let t := (s.writeCell (value s a) (value s b)).advance 3
  have hcell : t.readCell (value s a).toNat = some (rawOfWord (value s b)) := by simp [t]
  refine ⟨t, step_of_fetch_ok hr hf, State.next_toNat (s := s) (by omega), hcell, fun k hk hlen => ?_, fun h => ?_⟩
  · rw [fetchWords_getElem? hlen, ← hk, hcell, rawOfWord]
  · rw [h] at hcell
    refine ⟨by rw [fetchWords_of_readCell hcell]; rfl, fun hop => ?_, fun hop => ?_⟩
    · exact step_faulted_of_fetch_error hr (fetch_of_21_lt hcell (by rwa [rawOfWord_toNat]))
    · have hzero : rawOfWord (value s b) = 0 := BitVec.eq_of_toNat_eq ((rawOfWord_toNat _).trans hop)
      exact step_of_fetch_ok hr (fetch_of_zero (hzero ▸ hcell))

/-! ### No step is enabled exactly where RUN is not Running -/

theorem withDest_ne_fault {regOnly : Bool} {a : Operand} {s : State} {k : Dest → Answer} {f : Fault}
    (hk : ∀ d, k d ≠ .fault f) : withDest regOnly a s k ≠ .fault f := by
  rcases withDest_cases regOnly a s k with ⟨d, -, h⟩ | ⟨-, h⟩ <;> rw [h]
  · exact hk d
  · exact nofun

/-- Log entry 9: no instruction answers a fault of the model's own. -/
theorem exec_ne_fault (i : Instr) (s : State) (f : Fault) : exec i s ≠ .fault f := by
  cases i with
  | halt | jmp _ | jt _ _ | jf _ _ | noop | wmem _ _ | out _ => exact nofun
  | set _ _ | eq _ _ _ | gt _ _ _ | add _ _ _ | mult _ _ _ | and _ _ _ | or _ _ _ | not _ _ =>
    exact withDest_ne_fault fun d => nofun
  | push a =>
    simp only [exec, execPush]
    split <;> exact nofun
  | call a =>
    simp only [exec, execCall]
    split <;> [skip; split] <;> exact nofun
  | ret =>
    simp only [exec, execRet]
    split <;> exact nofun
  | pop _ | mod _ _ _ | rmem _ _ | inp _ =>
    refine withDest_ne_fault fun d => ?_
    split <;> exact nofun

/-- Settles O40: by RUN; a running core enters a fault of fetch, which is a next state, or executes. -/
theorem noStepExactlyInTerminalStates : Obligations.NoStepExactlyInTerminalStates := by
  refine fun s => ⟨step_ne_next_of_not_running, ?_⟩
  cases hr : s.run with
  | halted => exact iff_of_true ⟨.halted, by simp only [step, hr]⟩ nofun
  | faulted => exact iff_of_true ⟨.faulted, by simp only [step, hr]⟩ nofun
  | running =>
    refine iff_of_false (fun ⟨f, hstep⟩ => ?_) (not_not_intro rfl)
    cases hf : fetch s with
    | error c =>
      rw [step_of_fetch_error hr hf] at hstep
      cases hstep
    | ok i => exact exec_ne_fault i s f (step_of_fetch_ok hr hf ▸ hstep)

end Sys2Proof.Machine
end

section
/-! Faults (60_exceptions R100, R101, R103): a cause makes the step enter it, and the causes of each instruction are those
listed for it. -/

namespace Sys2Proof.Machine

/-! ### An instruction with a cause enters it -/

theorem destination_eq {i : Instr} {a : Operand} (ha : destinationOperand i = some a) (s : State) :
    destination s i = destOf (mustBeRegister s.params.regOnlyDest i) a := by rw [destination, ha, Option.bind_some]

/-- R67, R68. -/
theorem exec_of_bad_destination {i : Instr} {a : Operand} {s : State} (ha : destinationOperand i = some a)
    (hd : destination s i = none) : exec i s = .next (s.enterFault .invalidOperand) := by
  rw [destination_eq ha] at hd
  cases i with
  | set _ _ | pop _ | eq _ _ _ | gt _ _ _ | add _ _ _ | mult _ _ _ | mod _ _ _ | and _ _ _ | or _ _ _ | not _ _
  | rmem _ _ | inp _ =>
    cases ha
    exact withDest_none hd
  | halt | push _ | jmp _ | jt _ _ | jf _ _ | wmem _ _ | call _ | ret | out _ | noop => cases ha

/-- R100: an execution-stage fault is entered where the instruction's destination, if it has one, is good. -/
theorem exec_of_executionCause {i : Instr} {s : State} {c : Cause} (hc : executionCause s i = some c)
    (hd : ∀ a, destinationOperand i = some a → ∃ d, destination s i = some d) : exec i s = .next (s.enterFault c) := by
  cases i with
  | pop a =>
    obtain ⟨d, hd⟩ := hd a rfl
    obtain ⟨hs, ⟨⟩⟩ := Option.ite_none_right_eq_some.1 hc
    exact exec_pop_of_stack_nil hd hs
  | ret =>
    obtain ⟨hs, ⟨⟩⟩ := Option.ite_none_right_eq_some.1 hc
    exact execRet_of_stack_nil hs
  | mod a b c =>
    obtain ⟨d, hd⟩ := hd a rfl
    obtain ⟨hzero, ⟨⟩⟩ := Option.ite_none_right_eq_some.1 hc
    exact exec_mod_of_zero b hd hzero
  | rmem a b =>
    obtain ⟨d, hd⟩ := hd a rfl
    obtain ⟨hnone, ⟨⟩⟩ := Option.ite_none_right_eq_some.1 hc
    exact exec_rmem_of_unreadable hd hnone
  | call a =>
    obtain ⟨hpc, ⟨⟩⟩ := Option.ite_none_right_eq_some.1 hc
    exact exec_call_past_memory a hpc
  | halt | set _ _ | push _ | eq _ _ _ | gt _ _ _ | jmp _ | jt _ _ | jf _ _ | add _ _ _ | mult _ _ _ | and _ _ _
  | or _ _ _ | not _ _ | wmem _ _ | out _ | inp _ | noop => cases hc

/-- R103: the destination's check first, then the execution stage. -/
theorem instrCause_cases {i : Instr} {s : State} {c : Cause} (h : instrCause s i = some c) :
    (∃ a, destinationOperand i = some a ∧ destination s i = none ∧ c = .invalidOperand) ∨
    ((∀ a, destinationOperand i = some a → ∃ d, destination s i = some d) ∧ executionCause s i = some c) := by
  unfold instrCause at h
  split at h
  · next hbad =>
    obtain ⟨ha, hd⟩ := hbad
    obtain ⟨a, ha⟩ := Option.isSome_iff_exists.1 ha
    exact .inl ⟨a, ha, hd, (Option.some.inj h).symm⟩
  · next hgood =>
    refine .inr ⟨fun a ha => Option.ne_none_iff_exists'.1 fun hd => hgood ⟨?_, hd⟩, h⟩
    rw [ha, Option.isSome_some]

theorem exec_of_instrCause {i : Instr} {s : State} {c : Cause} (h : instrCause s i = some c) :
    exec i s = .next (s.enterFault c) := by
  obtain ⟨a, ha, hd, rfl⟩ | ⟨hd, hc⟩ := instrCause_cases h
  · exact exec_of_bad_destination ha hd
  · exact exec_of_executionCause hc hd

theorem step_of_stepCause {s : State} {c : Cause} (hr : s.run = .running) (h : stepCause s = some c) :
    step s = .next (s.enterFault c) := by
  cases hf : fetch s with
  | error c' =>
    obtain rfl : c' = c := by simpa only [stepCause, hf, Option.some.injEq] using h
    exact step_of_fetch_error hr hf
  | ok i =>
    rw [step_of_fetch_ok hr hf]
    exact exec_of_instrCause (by simpa only [stepCause, hf] using h)

/-- Settles O41: a step to Faulted is the entry of its cause, and a cause is entered. -/
theorem faultsArePrecise : Obligations.FaultsArePrecise := by
  refine ⟨fun s t h ht => ?_, fun s c hr hc => ⟨_, step_of_stepCause hr hc, faultedWith_enterFault s c⟩⟩
  obtain ⟨c, hc, rfl⟩ := step_eq_enterFault h ht
  exact ⟨c, hc, faultedWith_enterFault s c⟩

/-! ### The kinds listed -/

theorem invalidOperand_mem_executionFaults {i : Instr} {a : Operand} (ha : destinationOperand i = some a) :
    .invalidOperand ∈ executionFaults i := by
  cases i with
  | set _ _ | pop _ | eq _ _ _ | gt _ _ _ | add _ _ _ | mult _ _ _ | mod _ _ _ | and _ _ _ | or _ _ _ | not _ _
  | rmem _ _ | inp _ => exact List.mem_cons_self
  | halt | push _ | jmp _ | jt _ _ | jf _ _ | wmem _ _ | call _ | ret | out _ | noop => cases ha

theorem executionCause_kind_mem {i : Instr} {s : State} {c : Cause} (hc : executionCause s i = some c) :
    c.kind ∈ executionFaults i := by
  cases i with
  | pop _ | ret | mod _ _ _ | rmem _ _ | call _ =>
    obtain ⟨-, ⟨⟩⟩ := Option.ite_none_right_eq_some.1 hc
    simp [executionFaults, Cause.kind]
  | halt | set _ _ | push _ | eq _ _ _ | gt _ _ _ | jmp _ | jt _ _ | jf _ _ | add _ _ _ | mult _ _ _ | and _ _ _
  | or _ _ _ | not _ _ | wmem _ _ | out _ | inp _ | noop => cases hc

/-- Settles O42: what ends in Faulted is the entry of the instruction's cause, which is one of those listed. -/
theorem executionFaultsAreThoseListed : Obligations.ExecutionFaultsAreThoseListed := by
  intro i s t hr h ht
  obtain ⟨c, hc, rfl⟩ := (exec_effect h).eq_enterFault hr ht
  obtain ⟨a, ha, -, rfl⟩ | ⟨-, hc⟩ := instrCause_cases hc
  · exact invalidOperand_mem_executionFaults ha
  · exact executionCause_kind_mem hc

end Sys2Proof.Machine
end

section
/-! The pc of an instruction that transfers no control (10_state R17): a result, an advance and a fault are its only
ends. -/

namespace Sys2Proof.Machine

/-- Where the answer is a next state that still runs, its pc is `width` on. -/
def AdvancesBy (width : Nat) (s : State) (o : Answer) : Prop :=
  ∀ t, o = .next t → t.run = .running → t.pc = s.next width

theorem advancesBy_next {width : Nat} {s t : State} (h : t.pc = s.next width) : AdvancesBy width s (.next t) := by
  rintro _ ⟨rfl⟩ -
  exact h

theorem advancesBy_raise (width : Nat) (s : State) (c : Cause) : AdvancesBy width s (raise c s) := by
  rintro _ ⟨rfl⟩ hrun
  cases hrun

theorem advancesBy_finish (s : State) (d : Dest) (r : Word) (width : Nat) :
    AdvancesBy width s (finish s d r width) := advancesBy_next (by simp)

theorem advancesBy_withDest {regOnly : Bool} {a : Operand} {width : Nat} {s : State} {k : Dest → Answer}
    (hk : ∀ d, AdvancesBy width s (k d)) : AdvancesBy width s (withDest regOnly a s k) := by
  rcases withDest_cases regOnly a s k with ⟨d, -, h⟩ | ⟨-, h⟩ <;> rw [h]
  · exact hk d
  · exact advancesBy_raise width s _

/-- R17: by the instruction; a waiting `in` is left out. -/
theorem advancesBy_exec {i : Instr} {s : State} (hi : isSequential i = true) (hin : ∀ a, i = .inp a → s.input ≠ []) :
    AdvancesBy i.width s (exec i s) := by
  cases i with
  | halt | jmp _ | jt _ _ | jf _ _ | call _ | ret => cases hi
  | noop | out _ | wmem _ _ => exact advancesBy_next rfl
  | set _ _ | eq _ _ _ | gt _ _ _ | add _ _ _ | mult _ _ _ | and _ _ _ | or _ _ _ | not _ _ =>
    exact advancesBy_withDest fun d => advancesBy_finish s d _ _
  | push a =>
    intro t h _
    rw [exec_push_eq_next h]
    rfl
  | pop _ | mod _ _ _ | rmem _ _ =>
    refine advancesBy_withDest fun d => ?_
    split
    · exact advancesBy_raise _ s _
    · exact advancesBy_next (by simp [Instr.width, Instr.operands])
  | inp a =>
    refine advancesBy_withDest fun d => ?_
    split
    · exact absurd ‹_› (hin a rfl)
    · exact advancesBy_finish s.dropInput d _ _

/-- R46: the longest instruction has four words. -/
theorem width_le_four (i : Instr) : i.width ≤ 4 := by cases i <;> simp [Instr.width, Instr.operands]

/-- Settles O43: from a pc below 32768 the sum of pc and width does not wrap. -/
theorem sequentialInstructionsAdvanceByWidth : Obligations.SequentialInstructionsAdvanceByWidth := by
  intro i s t hi hr hpc hin h ht
  have hw := width_le_four i
  rw [advancesBy_exec hi hin t h ht, State.next_toNat (by omega)]

end Sys2Proof.Machine
end

section
/-! What a step writes (10_state R14, R27; 20_memory R33, R37, R38, R45): at most one destination, which is the register
or the cell that the fetched instruction names. The rules for registers, cells and allocation bits are read off. -/

namespace Sys2Proof.Machine

/-! ### The target of an instruction -/

/-- R37, R65, R87: what an instruction writes its word to: `wmem` the cell at its address operand's value, every other
instruction its destination. -/
def writeTarget (s : State) : Instr → Option Dest
  | .wmem a _ => some (.mem (value s a))
  | i => destination s i

theorem writeTarget_of_destination {s : State} {i : Instr} {d : Dest} (h : destination s i = some d) :
    writeTarget s i = some d := by
  cases i with
  | wmem a b => cases h
  | _ => exact h

/-- The address an instruction stores to is that of its target, where that is a cell. -/
theorem storeAddress_eq_some_iff {s : State} {i : Instr} {v : Word} :
    storeAddress s i = some v ↔ writeTarget s i = some (.mem v) := by
  have h : storeAddress s i = match writeTarget s i with
    | some (.mem v) => some v
    | some (.reg _) | none => none := by cases i <;> rfl
  rw [h]
  rcases writeTarget s i with _ | _ | _ <;> simp

/-- A register is a target only as the destination operand. -/
theorem destinationOperand_of_writeTarget {s : State} {i : Instr} {n : RegIdx} (h : writeTarget s i = some (.reg n)) :
    destinationOperand i = some (.reg n) := by
  have hd : destination s i = some (.reg n) := by
    cases i with
    | wmem a b => cases h
    | _ => exact h
  obtain ⟨a, ha, hd⟩ := Option.bind_eq_some_iff.1 hd
  have hdest := destOf_eq_some hd
  cases a with
  | lit v => cases hdest
  | reg m =>
    cases hdest
    exact ha

/-! ### What an instruction and a step write -/

/-- An instruction leaves all registers and cells, because it has no target, stops the run or waits; or it writes one
word to its target and to nothing else. -/
theorem Effect.writes {i : Instr} {s t : State} (h : Effect i s t) :
    (SameRegs s t ∧ SameCells s t ∧ (writeTarget s i = none ∨ t.run ≠ .running ∨
      ∃ a d, i = .inp a ∧ destination s i = some d ∧ s.input = [])) ∨
    ∃ d r, writeTarget s i = some d ∧ Wrote d r s t := by
  cases h with
  | fault c => exact .inl ⟨fun _ => rfl, fun _ => ⟨rfl, rfl⟩, .inr (.inl nofun)⟩
  | wait a d hi hd hin => exact .inl ⟨fun _ => rfl, fun _ => ⟨rfl, rfl⟩, .inr (.inr ⟨a, d, hi, hd, hin⟩)⟩
  | halt hi | call _ _ hi | ret _ _ hi | push _ hi | emit _ hi =>
    refine .inl ⟨fun _ => rfl, fun _ => ⟨rfl, rfl⟩, .inl ?_⟩
    subst hi
    rfl
  | advance w hw hi =>
    refine .inl ⟨fun _ => rfl, fun _ => ⟨rfl, rfl⟩, .inl ?_⟩
    obtain rfl | ⟨a, b, rfl | rfl⟩ := hi <;> rfl
  | jump v hi =>
    refine .inl ⟨fun _ => rfl, fun _ => ⟨rfl, rfl⟩, .inl ?_⟩
    obtain ⟨a, rfl | ⟨b, rfl | rfl⟩⟩ := hi <;> rfl
  | result d r w hw hd => exact .inr ⟨d, r, writeTarget_of_destination hd, wrote_writeDest s d r⟩
  | pop a d v rest hi hd => exact .inr ⟨d, v, writeTarget_of_destination hd, wrote_writeDest s.dropTop d v⟩
  | take a d w rest hi hd => exact .inr ⟨d, w, writeTarget_of_destination hd, wrote_writeDest s.dropInput d w⟩
  | store a b hi =>
    subst hi
    exact .inr ⟨_, _, rfl, wrote_writeDest s (.mem (value s a)) (value s b)⟩

theorem stepStoreAddress_of_fetch_ok {s : State} {i : Instr} (hf : fetch s = .ok i) :
    stepStoreAddress s = storeAddress s i := by simp only [stepStoreAddress, hf]

theorem stepStoreAddress_of_fetch_error {s : State} {c : Cause} (hf : fetch s = .error c) :
    stepStoreAddress s = none := by simp only [stepStoreAddress, hf]

/-- What a step does to registers: nothing, or it writes one, the target of the fetched instruction. -/
theorem step_regs {s t : State} (h : step s = .next t) :
    SameRegs s t ∨ ∃ i d r, fetch s = .ok i ∧ writeTarget s i = some d ∧ Wrote d r s t := by
  obtain ⟨-, ⟨c, -, rfl⟩ | ⟨i, hf, he⟩⟩ := step_effect h
  · exact .inl fun _ => rfl
  · obtain ⟨hregs, -⟩ | ⟨d, r, hd, hw⟩ := he.writes
    · exact .inl hregs
    · exact .inr ⟨i, d, r, hf, hd, hw⟩

/-- R36, R38: from s to t the word r was stored in the cell at v, and all other cells were left. -/
def StoredCell (v r : Word) (s t : State) : Prop :=
  ∀ x, (t.readCell x = if x = v.toNat then some (rawOfWord r) else s.readCell x) ∧
    t.allocated x = if x = v.toNat then true else s.allocated x

theorem storedCell_of_wrote {v r : Word} {s t : State} (h : Wrote (.mem v) r s t) : StoredCell v r s t := by
  obtain ⟨-, hread, hbit⟩ := h
  exact fun x => ⟨hread x, hbit x⟩

theorem sameCells_of_wrote_reg {n : RegIdx} {r : Word} {s t : State} (h : Wrote (.reg n) r s t) : SameCells s t := by
  obtain ⟨-, hread, hbit⟩ := h
  exact fun x => ⟨hread x, hbit x⟩

/-- What a step does to memory: nothing, because it stores to no cell, stops the run or waits; or it stores one word in
the cell at its store address. -/
theorem step_cells {s t : State} (h : step s = .next t) :
    (SameCells s t ∧ (stepStoreAddress s = none ∨ t.run ≠ .running ∨ s.waiting = true)) ∨
    ∃ v r, stepStoreAddress s = some v ∧ StoredCell v r s t := by
  obtain ⟨hr, ⟨c, hf, rfl⟩ | ⟨i, hf, he⟩⟩ := step_effect h
  · exact .inl ⟨fun _ => ⟨rfl, rfl⟩, .inl (stepStoreAddress_of_fetch_error hf)⟩
  · rw [stepStoreAddress_of_fetch_ok hf]
    have hnone : (∀ v, writeTarget s i ≠ some (.mem v)) → storeAddress s i = none := fun hne =>
      Option.eq_none_iff_forall_ne_some.2 fun v hv => hne v (storeAddress_eq_some_iff.1 hv)
    obtain ⟨-, hcells, hidle⟩ | ⟨d, r, hd, hw⟩ := he.writes
    · refine .inl ⟨hcells, hidle.imp (fun hd => hnone fun v => by simp [hd]) (Or.imp_right ?_)⟩
      rintro ⟨a, d, rfl, hd, hin⟩
      exact State.waiting_iff.2 ⟨hr, a, d, hf, hd, hin⟩
    · cases d with
      | reg n => exact .inl ⟨sameCells_of_wrote_reg hw, .inl (hnone fun v => by simp [hd])⟩
      | mem v => exact .inr ⟨v, r, storeAddress_eq_some_iff.2 hd, storedCell_of_wrote hw⟩

/-- R22, R23: a step keeps RUN and the record, or halts, or enters a fault. -/
theorem step_run_cases {s t : State} (h : step s = .next t) :
    (t.run = .running ∧ SameRecord s t) ∨ (fetch s = .ok .halt ∧ t = s.halt) ∨ ∃ c, t = s.enterFault c := by
  obtain ⟨hr, ⟨c, -, rfl⟩ | ⟨i, hf, he⟩⟩ := step_effect h
  · exact .inr (.inr ⟨c, rfl⟩)
  · cases he with
    | fault c => exact .inr (.inr ⟨c, rfl⟩)
    | halt hi => exact .inr (.inl ⟨hi ▸ hf, rfl⟩)
    | wait | advance | jump | call | ret | push | result | pop | store | emit | take =>
      exact .inl (by simp [hr, SameRecord])

/-! ### The statements -/

/-- Settles O47: a store leaves every other cell; a halt, the entry of a fault and a Wait leave all. -/
theorem stepWritesAtMostOneCell : Obligations.StepWritesAtMostOneCell := by
  refine fun s t h => ⟨fun x hx => ?_, fun hrun => ?_, fun hw => ?_⟩
  · obtain ⟨hcells, -⟩ | ⟨v, r, hv, hstored⟩ := step_cells h
    · exact hcells x
    · simpa only [if_neg (hx v hv)] using hstored x
  · obtain ⟨ht, -⟩ | ⟨-, rfl⟩ | ⟨c, rfl⟩ := step_run_cases h
    · exact absurd ht hrun
    · exact fun _ => ⟨rfl, rfl⟩
    · exact fun _ => ⟨rfl, rfl⟩
  · rw [step_of_waiting hw] at h
    cases h
    exact fun _ => ⟨rfl, rfl⟩

/-- Settles O48: a store sets the bit of its cell and leaves the other bits. -/
theorem allocationIsNeverRemoved : Obligations.AllocationIsNeverRemoved := by
  intro s t a h
  obtain ⟨hcells, hidle⟩ | ⟨v, r, hv, hstored⟩ := step_cells h
  · obtain ⟨-, hbit⟩ := hcells a
    refine ⟨hbit.trans, fun hfalse htrue => ?_, fun v hv hrun hwait => ?_⟩
    · rw [hbit, hfalse] at htrue
      cases htrue
    · simp [hv, hrun, hwait] at hidle
  · obtain ⟨-, hbit⟩ := hstored a
    refine ⟨fun htrue => ?_, fun hfalse htrue => ⟨v, hv, ?_⟩, fun v' hv' _ _ => ?_⟩
    · rw [hbit, htrue, ite_self]
    · by_contra hne
      rw [hbit, if_neg hne, hfalse] at htrue
      cases htrue
    · obtain rfl : v = v' := Option.some.inj (hv.symm.trans hv')
      simpa using (hstored v.toNat).2

/-- Settles O49: what a step stores is a word. -/
theorem stepsStoreWordsOnly : Obligations.StepsStoreWordsOnly := by
  intro s t a v h hread hlarge
  obtain ⟨hcells, -⟩ | ⟨x, r, -, hstored⟩ := step_cells h
  · exact (hcells a).1 ▸ hread
  · rw [(hstored a).1] at hread
    split at hread
    · have hr := r.isLt
      rw [← Option.some.inj hread, rawOfWord_toNat] at hlarge
      omega
    · exact hread

/-- Settles O50: a register that changes is the target written. -/
theorem registersChangeOnlyAsDestination : Obligations.RegistersChangeOnlyAsDestination := by
  intro s t n h hne
  obtain hregs | ⟨i, d, r, hf, hd, hregs, -⟩ := step_regs h
  · exact absurd (hregs n) hne
  · have hn : d = .reg n := by
      by_contra hd
      exact hne (by rw [hregs, if_neg hd])
    exact ⟨i, hf, destinationOperand_of_writeTarget (hn ▸ hd)⟩

/-- Settles O52: by the three ways a step can leave RUN. -/
theorem runStatusAndRecordAreWrittenOnlyAtTheEnd : Obligations.RunStatusAndRecordAreWrittenOnlyAtTheEnd := by
  intro s t h
  obtain ⟨hrun, hrec⟩ | ⟨hf, rfl⟩ | ⟨c, rfl⟩ := step_run_cases h
  · exact ⟨fun ht => by simp [hrun] at ht, fun _ => hrec⟩
  · exact ⟨fun _ => hf, fun _ => ⟨rfl, rfl, rfl⟩⟩
  · exact ⟨nofun, fun ht => absurd rfl ht⟩

end Sys2Proof.Machine
end

section
/-! The stack, the boundary, the parameters and the invariant of a step boundary, each by the effect of the fetched
instruction (10_state R16, R19, R27; 44_io R97, R99). -/

namespace Sys2Proof.Machine

/-! ### The effect of an instruction -/

section
variable {i : Instr} {s t : State}

theorem Effect.params_eq (h : Effect i s t) : t.params = s.params := by cases h <;> simp

/-- R19: `push` and `call` push one word, `pop` and `ret` take one. -/
theorem Effect.stack_cases (h : Effect i s t) :
    t.stack = s.stack ∨ (∃ w a, t.stack = w :: s.stack ∧ (i = .push a ∨ i = .call a)) ∨
    ∃ w, s.stack = w :: t.stack ∧ (i = .ret ∨ ∃ a, i = .pop a) := by
  cases h with
  | fault | halt | wait | advance | jump | result | store | emit | take => exact .inl (by simp)
  | push a hi => exact .inr (.inl ⟨_, a, rfl, .inl hi⟩)
  | call w a hi => exact .inr (.inl ⟨w, a, rfl, .inr hi⟩)
  | ret w rest hi hs => exact .inr (.inr ⟨w, by simp [hs], .inl hi⟩)
  | pop a d w rest hi hd hs => exact .inr (.inr ⟨w, by simp [hs], .inr ⟨a, hi⟩⟩)

/-- R96, R99: only `out` appends an event. -/
theorem Effect.output_cases (h : Effect i s t) :
    t.output = s.output ∨ ∃ a, i = .out a ∧ t.output = s.output ++ [value s a] := by
  cases h with
  | emit a hi => exact .inr ⟨a, hi, rfl⟩
  | fault | halt | wait | advance | jump | call | ret | push | result | pop | store | take => exact .inl (by simp)

/-- R97: only `in` takes a word. -/
theorem Effect.input_cases (h : Effect i s t) : t.input = s.input ∨ ∃ a w, i = .inp a ∧ s.input = w :: t.input := by
  cases h with
  | take a d w rest hi hd hin => exact .inr ⟨a, w, hi, by simp [hin]⟩
  | fault | halt | wait | advance | jump | call | ret | push | result | pop | store | emit => exact .inl (by simp)

/-- Log entry 6: WriteDest keeps the canonical form. -/
theorem State.writeDest_wf (s : State) (d : Dest) (r : Word) (h : s.mem.wf) : (s.writeDest d r).mem.wf := by
  cases d with
  | reg n => exact h
  | mem a => exact Memory.write_wf _ _ h

theorem Effect.mem_wf (h : Effect i s t) (hm : s.mem.wf) : t.mem.wf := by
  cases h with
  | fault | halt | wait | advance | jump | call | ret | push | emit => exact hm
  | result d r => exact s.writeDest_wf d r hm
  | pop a d v => exact s.dropTop.writeDest_wf d v hm
  | take a d w => exact s.dropInput.writeDest_wf d w hm
  | store a b => exact Memory.write_wf _ _ hm

/-- R16: from a pc that names a cell. -/
theorem State.next_toNat_le {w : Nat} (hpc : s.pc.toNat < memCells) (hw : w ≤ 4) : (s.next w).toNat ≤ 32771 := by
  have hpc : s.pc.toNat < 32768 := hpc
  rw [State.next_toNat (by omega)]
  omega

theorem rawOfWord_toNat_le (v : Word) : (rawOfWord v).toNat ≤ 32771 := by
  have hv := v.isLt
  rw [rawOfWord_toNat]
  omega

theorem Effect.pc_le (h : Effect i s t) (hpc : s.pc.toNat < memCells) : t.pc.toNat ≤ 32771 := by
  have hstay : s.pc.toNat ≤ 32771 := Nat.le_trans (Nat.le_of_lt hpc) (by decide)
  cases h with
  | fault | halt | wait => exact hstay
  | jump | call | ret => exact rawOfWord_toNat_le _
  | advance w hw => exact s.next_toNat_le hpc hw
  | push | store | emit => exact s.next_toNat_le hpc (by decide)
  | result d r w hw => simpa using s.next_toNat_le hpc hw
  | pop | take => simpa using s.next_toNat_le hpc (by decide : 2 ≤ 4)

/-- R19, D14: a push needs room, and nothing else makes the stack longer. -/
theorem Effect.stack_le (h : Effect i s t) {d : Nat} (hd : s.params.stackDepth = some d) (hs : s.stack.length ≤ d) :
    t.stack.length ≤ d := by
  cases h with
  | fault | halt | wait | advance | jump | result | store | emit | take => simpa using hs
  | push a hi hroom | call w a hi hroom => exact s.stackHasRoom_iff.1 hroom d hd
  | ret | pop => simpa using Nat.le_trans (Nat.sub_le _ _) hs

end

/-! ### The statements -/

/-- Settles O54: neither the entry of a fault nor an effect writes them. -/
theorem stepsKeepLaunchParameters : Obligations.StepsKeepLaunchParameters := by
  intro s t h
  obtain ⟨-, ⟨c, -, rfl⟩ | ⟨i, -, he⟩⟩ := step_effect h
  · rfl
  · exact he.params_eq

/-- Settles O51: by the effect on the stack; the entry of a fault leaves it. -/
theorem stackChangesByOnePushOrPop : Obligations.StackChangesByOnePushOrPop := by
  intro s t h
  obtain ⟨-, ⟨c, -, rfl⟩ | ⟨i, hf, he⟩⟩ := step_effect h
  · exact .inl rfl
  · simpa only [hf, Except.ok.injEq] using he.stack_cases

/-- Settles O53: by the effect on the two streams; the entry of a fault leaves them. -/
theorem boundaryMovesOneWordAtATime : Obligations.BoundaryMovesOneWordAtATime := by
  intro s t h
  obtain ⟨-, ⟨c, -, rfl⟩ | ⟨i, hf, he⟩⟩ := step_effect h
  · exact ⟨.inl rfl, .inl rfl⟩
  · simpa only [hf, Except.ok.injEq] using And.intro he.output_cases he.input_cases

/-- Settles O45: the entry of a fault leaves memory, pc and stack; an instruction is fetched from a pc below 32768, and
its effect keeps each part. -/
theorem stepKeepsStateInvariant : Obligations.StepKeepsStateInvariant := by
  rintro s t ⟨hm, hpc, hstack⟩ h
  obtain ⟨-, ⟨c, -, rfl⟩ | ⟨i, hf, he⟩⟩ := step_effect h
  · exact ⟨hm, hpc, hstack⟩
  · refine ⟨he.mem_wf hm, he.pc_le (fetch_ok_pc hf), fun d hd => ?_⟩
    rw [he.params_eq] at hd
    exact he.stack_le hd (hstack d hd)

end Sys2Proof.Machine
end
